-- ==== Sys2Proof/Word.lean ====
section
/-! DEFINITION. The word types of the m-BitBeam PWM encoder: the byte of the bus port, the operand
field, the 12-bit register count and the command word (spec/30_encoding.md R50, R59; spec/20_memory.md R35). -/

namespace Sys2Proof

/-- One byte of the bus port: a bus address, a chip register address or a value (R30, R59). -/
abbrev Byte := BitVec 8

/-- One operand field `a`, `b`, `c` or `d` of a command word, `OPERAND_W` bits wide (R6, R50). -/
abbrev Operand (operandW : Nat) := BitVec operandW

/-- A 12-bit register count, 0..4095 (R35). -/
abbrev Count := BitVec 12

/-- The command word `{op, rsv, m, addr, a, b, c, d}` (R50): the width is the sum of its fields' widths, 80 bits (format
`CMD80`) where `OPERAND_W` is 16. -/
abbrev CmdWord (operandW : Nat) := BitVec (4 + 3 + 1 + 8 + operandW + operandW + operandW + operandW)

end Sys2Proof
end

