-- ==== Sys2Proof/Config.lean ====
section
/-! DEFINITION. What an implementation fixes and the spec leaves open: the named parameters of
spec/93_implementation_defined.md part 2, and the free values (the transport's answers and the draw of R104). -/

namespace Sys2Proof

/-- The transport's answer to one register write (R47). -/
inductive BusAnswer where
  /-- the transport took the write -/
  | success
  /-- the transport failed the write (R143) -/
  | busError
deriving DecidableEq, Repr, Inhabited

/-- The parameters a model takes as configuration (R6; spec/93_implementation_defined.md part 2). They are fixed for
the machine; `State` carries them so that a statement over all states holds for all their values (log entry 1).
`RESP_LAYOUT` has no layout (log entry 15). -/
structure Params where
  /-- `FO_DIV`, the divisor of `frequencyOffset` (R100) -/
  foDiv : Nat
  /-- `MODE1_SLEEP`, the byte that puts the chip to sleep (R121) -/
  mode1Sleep : Byte
  /-- `MODE1_WAKE`, the byte that wakes it (R121) -/
  mode1Wake : Byte
  /-- `MODE1_RESTART`, the byte that sets the restart bit (R121) -/
  mode1Restart : Byte
  /-- `INIT_DELAY_US`, the argument of the one delay of an init sequence (R122) -/
  initDelayUs : Nat
  /-- `OPERAND_W`, the width of the operand fields `a` to `d` and of the stored offsets (R16, R51; D5; log entry 22) -/
  operandW : Nat
  /-- `CMD_W`, the width of the command port: how many bits of a word the block takes (R50; D2; log entry 22) -/
  cmdW : Nat
deriving DecidableEq, Repr

/-- The constraints on the parameters: the divisor divides (R7 defines `fdiv` for a positive divisor), the delay is at
least 500 and fits the `u32` of `delayMicroseconds` (R47, R122), the default offsets 5, 15, 25 fit the stored fields (R16,
R82), and the command word is as wide as its fields (R50; log entry 22). -/
def Params.valid (p : Params) : Bool :=
  decide (0 < p.foDiv) && decide (500 ≤ p.initDelayUs) && decide (p.initDelayUs < 2 ^ 32) &&
    decide (5 ≤ p.operandW) && decide (p.cmdW = 16 + 4 * p.operandW)

/-- FREE VALUE (log entry 5): the transport's answer to a write for which `State.answers` lists none (R3, R47;
spec/93_implementation_defined.md U5). Applied to `State.fresh`. -/
opaque Config.freeAnswer : Nat → BusAnswer

/-- FREE VALUE (log entry 6): the element of {0, ..., 4095} that `draw` yields in a motion command on a channel whose
calibration order is broken (R8, R104; U4). Applied to `State.fresh`. -/
opaque Config.freeCount : Nat → Count

end Sys2Proof
end

