-- ==== Sys2Proof/Machine/Defaults.lean ====
section
/-! DEFINITION. The default values of the parameters (spec/00_scope.md R6): what `State.reset` holds. -/

namespace Sys2Proof.Machine

/-- The defaults of R6. `FO_DIV = 1000` is DOC0's literal (log entry 3), `INIT_DELAY_US = 500` the least value DOC0
allows (log entry 4), the three MODE1 bytes are PRESUMED: the spec's own default from general knowledge
(R121, G1; log entry 2), the two widths are those of D5 and D2 (log entry 22). -/
def defaultParams : Params where
  foDiv := 1000
  mode1Sleep := 0x11
  mode1Wake := 0x01
  mode1Restart := 0x81
  initDelayUs := 500
  operandW := 16
  cmdW := 80

end Sys2Proof.Machine
end

