-- ==== Sys2Proof/Syntax.lean ====
section
/-! DEFINITION. The seven commands, one constructor per row of spec/opcode_table.json, each with the operands its
row reads (spec/30_encoding.md R52, R53), in the order of DOC0's call signatures. -/

namespace Sys2Proof

/-- A command (R9) with its operands assembled (R51): an operand read as `sext_16` is an integer (`Instr.wellFormed`
bounds it by the field), an operand read as `zext_16` a natural number, bounded in the same way. -/
inductive Instr where
  /-- `init(address, frequency)`, R124 -/
  | init (address : Byte) (frequency : Int)
  /-- `reset(address)`, R125 -/
  | reset (address : Byte)
  /-- `setPinPulseRange(pin, onStep, offStep, address)`, R73 -/
  | setPinPulseRange (pin onStep offStep : Int) (address : Byte)
  /-- `setStandardServoAngle(channel, angleDegrees, address)`, R105 -/
  | setStandardServoAngle (channel angle : Int) (address : Byte)
  /-- `setContinuousServoSpeed(channel, speedPercent, address)`, R106 -/
  | setContinuousServoSpeed (channel speed : Int) (address : Byte)
  /-- `setServoLimits(channel, minOffset, maxOffset, midOffset?, address)`, R92; `midOffset` is absent when `m = 0` -/
  | setServoLimits (channel : Int) (minOffset maxOffset : Nat) (midOffset : Option Nat) (address : Byte)
  /-- `getChipConfig(address)`, R84 -/
  | getChipConfig (address : Byte)
deriving DecidableEq, Repr

/-- The bus address every command carries (R53). -/
def Instr.address : Instr → Byte
  | .init address _ => address
  | .reset address => address
  | .setPinPulseRange _ _ _ address => address
  | .setStandardServoAngle _ _ address => address
  | .setContinuousServoSpeed _ _ address => address
  | .setServoLimits _ _ _ _ address => address
  | .getChipConfig address => address

end Sys2Proof
end

