-- ==== Sys2Proof/WellFormed.lean ====
section
/-! DEFINITION. Which commands have a command word: every signed and every unsigned operand fits its field of `OPERAND_W`
bits (spec/30_encoding.md R51, R53). The address fits by its type. -/

namespace Sys2Proof

/-- `x` is the value of some field of `operandW` bits read as `sext`: -32768..32767 for 16 bits (R51). -/
def fitsSigned (operandW : Nat) (x : Int) : Bool := decide (-(2 ^ operandW) ≤ 2 * x) && decide (2 * x < 2 ^ operandW)

/-- `n` is the value of some field of `operandW` bits read as `zext`: 0..65535 for 16 bits (R51). -/
def fitsUnsigned (operandW : Nat) (n : Nat) : Bool := decide (n < 2 ^ operandW)

/-- The command has a word (R50, R53). -/
def Instr.wellFormed (operandW : Nat) : Instr → Bool
  | .init _ frequency => fitsSigned operandW frequency
  | .reset _ => true
  | .setPinPulseRange pin onStep offStep _ =>
    fitsSigned operandW pin && fitsSigned operandW onStep && fitsSigned operandW offStep
  | .setStandardServoAngle channel angle _ => fitsSigned operandW channel && fitsSigned operandW angle
  | .setContinuousServoSpeed channel speed _ => fitsSigned operandW channel && fitsSigned operandW speed
  | .setServoLimits channel minOffset maxOffset midOffset _ =>
    fitsSigned operandW channel && fitsUnsigned operandW minOffset && fitsUnsigned operandW maxOffset &&
      midOffset.all (fitsUnsigned operandW)
  | .getChipConfig _ => true

end Sys2Proof
end

