-- ==== Sys2Proof/Decode.lean ====
section
/-! DEFINITION. The decoder of the command word, total on every word (spec/30_encoding.md R50 to R56, R61), the
encoder written from the same table (R50, R52, R53), and the assembler of R57. -/

namespace Sys2Proof

/-- Why a word is no command. -/
inductive DecodeError where
  /-- `op` is in 0x7..0xF (R54); the block answers `Err(IllegalCommand)`. -/
  | illegalOp (op : BitVec 4)
deriving DecidableEq, Repr

/-- `op = w[79:76]` (R50; the bit numbers of this section's comments are those of `OPERAND_W = 16`). -/
def fieldOp {operandW : Nat} (w : CmdWord operandW) : BitVec 4 := w.extractLsb' (4 * operandW + 12) 4
/-- `rsv = w[75:73]`, ignored by decode (R50, R55). -/
def fieldRsv {operandW : Nat} (w : CmdWord operandW) : BitVec 3 := w.extractLsb' (4 * operandW + 9) 3
/-- `m = w[72]`, read by `setServoLimits` only (R50). -/
def fieldM {operandW : Nat} (w : CmdWord operandW) : BitVec 1 := w.extractLsb' (4 * operandW + 8) 1
/-- `addr = w[71:64]` (R50). -/
def fieldAddr {operandW : Nat} (w : CmdWord operandW) : Byte := w.extractLsb' (4 * operandW) 8
/-- `a = w[63:48]` (R50). -/
def fieldA {operandW : Nat} (w : CmdWord operandW) : Operand operandW := w.extractLsb' (3 * operandW) operandW
/-- `b = w[47:32]` (R50). -/
def fieldB {operandW : Nat} (w : CmdWord operandW) : Operand operandW := w.extractLsb' (2 * operandW) operandW
/-- `c = w[31:16]` (R50). -/
def fieldC {operandW : Nat} (w : CmdWord operandW) : Operand operandW := w.extractLsb' operandW operandW
/-- `d = w[15:0]` (R50). -/
def fieldD {operandW : Nat} (w : CmdWord operandW) : Operand operandW := w.extractLsb' 0 operandW

/-- `sext_16` (R7, R51). -/
def sext {operandW : Nat} (v : Operand operandW) : Int := v.toInt

/-- `zext_16` (R7, R51). -/
def zext {operandW : Nat} (v : Operand operandW) : Nat := v.toNat

/-- `midOffset?`: given by `d` when `m = 1`, omitted when `m = 0` (R53, R55). -/
def optionalMid {operandW : Nat} (m : BitVec 1) (d : Operand operandW) : Option Nat :=
  if m = 1#1 then some (zext d) else none

/-- The decode procedure (R61) with each operand read as R53 says. -/
def decode (operandW : Nat) (w : CmdWord operandW) : Except DecodeError Instr :=
  match (fieldOp w).toNat with
  | 0 => .ok (.init (fieldAddr w) (sext (fieldA w)))
  | 1 => .ok (.reset (fieldAddr w))
  | 2 => .ok (.setPinPulseRange (sext (fieldA w)) (sext (fieldB w)) (sext (fieldC w)) (fieldAddr w))
  | 3 => .ok (.setStandardServoAngle (sext (fieldA w)) (sext (fieldB w)) (fieldAddr w))
  | 4 => .ok (.setContinuousServoSpeed (sext (fieldA w)) (sext (fieldB w)) (fieldAddr w))
  | 5 => .ok (.setServoLimits (sext (fieldA w)) (zext (fieldB w)) (zext (fieldC w)) (optionalMid (fieldM w) (fieldD w))
      (fieldAddr w))
  | 6 => .ok (.getChipConfig (fieldAddr w))
  | _ => .error (.illegalOp (fieldOp w))

/-- `w = {op, rsv, m, addr, a, b, c, d}` (R50). -/
def packFields {operandW : Nat} (op : BitVec 4) (rsv : BitVec 3) (m : BitVec 1) (addr : Byte)
    (a b c d : Operand operandW) : CmdWord operandW :=
  op ++ rsv ++ m ++ addr ++ a ++ b ++ c ++ d

/-- The operation number of each command (R52). -/
def Instr.opcode : Instr → BitVec 4
  | .init _ _ => 0x0
  | .reset _ => 0x1
  | .setPinPulseRange _ _ _ _ => 0x2
  | .setStandardServoAngle _ _ _ => 0x3
  | .setContinuousServoSpeed _ _ _ => 0x4
  | .setServoLimits _ _ _ _ _ => 0x5
  | .getChipConfig _ => 0x6

/-- The two's-complement pattern of a signed operand (R57). -/
def signedPattern (operandW : Nat) (x : Int) : Operand operandW := BitVec.ofInt operandW x

/-- The pattern of an unsigned operand (R57). -/
def unsignedPattern (operandW : Nat) (n : Nat) : Operand operandW := BitVec.ofNat operandW n

/-- The `m` field: 1 when `midOffset` is given (R53). -/
def midFlag : Option Nat → BitVec 1
  | some _ => 1
  | none => 0

/-- The word of a command: each operand in the field R53 names, `rsv` and every unused field 0 (R57). -/
def encode (operandW : Nat) (i : Instr) : CmdWord operandW :=
  let signed := signedPattern operandW
  let unsigned := unsignedPattern operandW
  match i with
  | .init address f => packFields i.opcode 0 0 address (signed f) 0 0 0
  | .reset address => packFields i.opcode 0 0 address 0 0 0 0
  | .setPinPulseRange pin on off address => packFields i.opcode 0 0 address (signed pin) (signed on) (signed off) 0
  | .setStandardServoAngle ch x address => packFields i.opcode 0 0 address (signed ch) (signed x) 0 0
  | .setContinuousServoSpeed ch x address => packFields i.opcode 0 0 address (signed ch) (signed x) 0 0
  | .setServoLimits ch mn mx md address =>
    packFields i.opcode 0 (midFlag md) address (signed ch) (unsigned mn) (unsigned mx) (unsigned (md.getD 0))
  | .getChipConfig address => packFields i.opcode 0 0 address 0 0 0 0

/-- The command word the block takes from a word on its port: the port is `CMD_W` bits wide (R6, R50). -/
def portWord (p : Params) (w : Nat) : CmdWord p.operandW := BitVec.ofNat _ (w % 2 ^ p.cmdW)

/-- The word on the port whose bits are `w`, numbered as spec/opcode_table.json numbers them; bits from `nbits` on are 0. -/
def tableWord (nbits w : Nat) : Nat := w % 2 ^ nbits

/-- What the decoder reads from that word at the default widths; `none` where it refuses. -/
def decodeTableWord (nbits w : Nat) : Option Instr :=
  (decode Machine.defaultParams.operandW (portWord Machine.defaultParams (tableWord nbits w))).toOption

/-! ## The assembler (R57)

R57 does not say what an operand is whose number does not fit its field: DESIGN CHOICE (log entry 20), the line is refused. -/

/-- A byte operand written as a number; refused outside 0..255 (DESIGN CHOICE, log entry 20). -/
def asmByte (x : Int) : Option Byte := if 0 ≤ x ∧ x ≤ 255 then some (BitVec.ofInt 8 x) else none

/-- An operand read as `zext_16`, written as a number; refused where it does not fit the field, so a negative one is
(DESIGN CHOICE, log entry 20). -/
def asmUnsigned (operandW : Nat) (x : Int) : Option Nat :=
  if 0 ≤ x ∧ fitsUnsigned operandW x.toNat then some x.toNat else none

/-- An operand read as `sext_16`, written as a number; refused where it does not fit the field, so 0xFFF9 is and -7 is not
(DESIGN CHOICE, log entry 20). -/
def asmSigned (operandW : Nat) (x : Int) : Option Int := if fitsSigned operandW x then some x else none

/-- The command of a call: operands in DOC0's order, the address last where R53 adds it, `midOffset` given exactly in the
five-operand form of `setServoLimits` (R57). No other name, no other count of operands, no default. -/
def assembleCall (operandW : Nat) (name : String) (args : List Int) : Option Instr :=
  let signed := asmSigned operandW
  let unsigned := asmUnsigned operandW
  match args with
  | [x] =>
    if name = "reset" then do return .reset (← asmByte x)
    else if name = "getChipConfig" then do return .getChipConfig (← asmByte x)
    else none
  | [x, y] =>
    if name = "init" then do return .init (← asmByte x) (← signed y)
    else none
  | [x, y, z] =>
    if name = "setStandardServoAngle" then do return .setStandardServoAngle (← signed x) (← signed y) (← asmByte z)
    else if name = "setContinuousServoSpeed" then do
      return .setContinuousServoSpeed (← signed x) (← signed y) (← asmByte z)
    else none
  | [x, y, z, u] =>
    if name = "setPinPulseRange" then do
      return .setPinPulseRange (← signed x) (← signed y) (← signed z) (← asmByte u)
    else if name = "setServoLimits" then do
      return .setServoLimits (← signed x) (← unsigned y) (← unsigned z) none (← asmByte u)
    else none
  | [x, y, z, u, v] =>
    if name = "setServoLimits" then do
      return .setServoLimits (← signed x) (← unsigned y) (← unsigned z) (some (← unsigned u)) (← asmByte v)
    else none
  | _ => none

/-- DOC0's name of the command (R52). -/
def Instr.mnemonic : Instr → String
  | .init _ _ => "init"
  | .reset _ => "reset"
  | .setPinPulseRange _ _ _ _ => "setPinPulseRange"
  | .setStandardServoAngle _ _ _ => "setStandardServoAngle"
  | .setContinuousServoSpeed _ _ _ => "setContinuousServoSpeed"
  | .setServoLimits _ _ _ _ _ => "setServoLimits"
  | .getChipConfig _ => "getChipConfig"

/-- The operands of the command in the order its assembler line writes them (R57). -/
def Instr.operands : Instr → List Int
  | .init address f => [address.toNat, f]
  | .reset address => [address.toNat]
  | .setPinPulseRange pin on off address => [pin, on, off, address.toNat]
  | .setStandardServoAngle ch x address => [ch, x, address.toNat]
  | .setContinuousServoSpeed ch x address => [ch, x, address.toNat]
  | .setServoLimits ch mn mx none address => [ch, mn, mx, address.toNat]
  | .setServoLimits ch mn mx (some md) address => [ch, mn, mx, md, address.toNat]
  | .getChipConfig address => [address.toNat]

/-- The value of a digit character in the given base. -/
def asmDigit (base : Nat) (ch : Char) : Option Nat :=
  let n := ch.toNat
  let v := if 48 ≤ n ∧ n ≤ 57 then n - 48 else if 97 ≤ n ∧ n ≤ 102 then n - 87
    else if 65 ≤ n ∧ n ≤ 70 then n - 55 else 16
  if v < base then some v else none

/-- The number a run of digits writes, continuing from `acc`. -/
def asmDigits (base : Nat) : Nat → List Char → Option Nat
  | acc, [] => some acc
  | acc, ch :: rest => (asmDigit base ch).bind fun v => asmDigits base (acc * base + v) rest

/-- A number without sign: `0x` hexadecimal or decimal, at least one digit (R57). -/
def asmNat : List Char → Option Nat
  | '0' :: 'x' :: ch :: rest => asmDigits 16 0 (ch :: rest)
  | ch :: rest => asmDigits 10 0 (ch :: rest)
  | [] => none

/-- A number, negative with a leading `-` (R57). -/
def asmInt : List Char → Option Int
  | '-' :: rest => (asmNat rest).map fun (n : Nat) => -(n : Int)
  | cs => (asmNat cs).map fun (n : Nat) => (n : Int)

/-- The text before the first `sep` and the text after it, where there is one. -/
def cutAtChar (sep : Char) : List Char → List Char × Option (List Char)
  | [] => ([], none)
  | ch :: rest => if ch = sep then ([], some rest) else
    let r := cutAtChar sep rest
    (ch :: r.1, r.2)

/-- The operand list `x, y, ...)` up to the closing parenthesis, which ends the line. -/
def asmArgs : List Char → List Char → Option (List Int)
  | _, [] => none
  | acc, ch :: rest =>
    if ch = ')' then if rest = [] then (asmInt acc.reverse).map fun x => [x] else none
    else if ch = ',' then (asmInt acc.reverse).bind fun x => (asmArgs [] rest).map fun xs => x :: xs
    else asmArgs (ch :: acc) rest

/-- One line of assembler text (R57): a comment after `;` and blanks are dropped (log entry 20). -/
def assembleLine (operandW : Nat) (line : List Char) : Option (CmdWord operandW) :=
  let text := (cutAtChar ';' line).1.filter fun ch => ch ≠ ' '
  match cutAtChar '(' text with
  | (name, some rest) =>
    (asmArgs [] rest).bind fun args => (assembleCall operandW (String.ofList name) args).map (encode operandW)
  | (_, none) => none

/-- A number as R57 writes it: decimal, or `0x` and hexadecimal digits, with a leading `-` when it is negative. -/
def numeral (hex : Bool) (x : Int) : List Char :=
  (if x < 0 then ['-'] else []) ++ if hex then '0' :: 'x' :: Nat.toDigits 16 x.natAbs else Nat.toDigits 10 x.natAbs

/-- The operands of a call as text: separated by a comma and a blank, closed by the parenthesis (R57). -/
def argsText (hex : Bool) : List Int → List Char
  | [] => [')']
  | [x] => numeral hex x ++ [')']
  | x :: rest => numeral hex x ++ ',' :: ' ' :: argsText hex rest

/-- The assembler line of a command (R57). -/
def Instr.line (hex : Bool) (i : Instr) : List Char := i.mnemonic.toList ++ '(' :: argsText hex i.operands

end Sys2Proof
end

