-- ==== Sys2Proof/Machine/State.lean ====
section
/-! DEFINITION. The state of the block: the registry table and the sequencer (spec/10_state.md), the two observations
(bus trace, responses; spec/00_scope.md R8, spec/30_encoding.md R58), and the inputs a step reads (command words,
transport answers, parameters, the counter of free values). Plain data. -/

namespace Sys2Proof.Machine

/-- `position`, the last commanded value in tagged form (R17, 90_conflicts.md C4). -/
inductive Position where
  /-- kind Unset: never commanded -/
  | unset
  /-- kind Standard with the clamped angle in degrees -/
  | standard (angle : Int)
  /-- kind Continuous with the clamped speed in percent -/
  | continuous (speed : Int)
deriving DecidableEq, Repr

/-- One stored entry `cfg[a].servos[k]` (R12, R15, R16, R17). Its `id` is the constant `k + 1` and is not stored (R14). The
offsets are unsigned integers of `OPERAND_W` bits: below `2 ^ operandW` by `State.Inv` (log entries 17 and 22). -/
structure ServoConfig where
  pinNumber : BitVec 4
  minOffset : Nat
  midOffset : Nat
  maxOffset : Nat
  position : Position
deriving DecidableEq, Repr

/-- The phase of a registered slot (R19). -/
inductive BringUp where
  /-- the most recent init sequence has not completed -/
  | initializing
  /-- the last init sequence ran to its last write with no bus error -/
  | running
deriving DecidableEq, Repr

/-- `cfg[a].phase` (R19). -/
inductive Phase where
  | unregistered
  | initializing
  | running
deriving DecidableEq, Repr

/-- The content of a registered slot `cfg[a]` (R12, R13, R19). Its address is the slot's index and is not stored. -/
structure ChipConfig where
  frequency : Nat
  phase : BringUp
  servos : Vector ServoConfig 16
deriving DecidableEq, Repr

/-- One event of the bus trace (R8): `W(a, r, v)` with the transport's answer, or `T(n)`. -/
inductive BusEvent where
  | write (address register value : Byte) (answer : BusAnswer)
  | delay (micros : Nat)
deriving DecidableEq, Repr

/-- The error kinds (R140). -/
inductive ErrorKind where
  /-- the address is outside 0x40..0x7E (R141) -/
  | invalidAddress
  /-- never raised (R142) -/
  | channelOutOfRange
  /-- the transport failed a register write (R143) -/
  | busError
  /-- never raised (R144) -/
  | uncalibratedServo
  /-- the command word's `op` is in 0x7..0xF (R145) -/
  | illegalCommand
deriving DecidableEq, Repr

/-- One servo entry as `getChipConfig` answers it, with `position` in both forms (R58). -/
structure ServoView where
  id : Nat
  pinNumber : BitVec 4
  minOffset : Nat
  midOffset : Nat
  maxOffset : Nat
  position : Position
  legacyPosition : Int
deriving DecidableEq, Repr

/-- The copy of a slot that `getChipConfig` answers (R58). -/
structure ConfigView where
  address : Byte
  frequency : Nat
  phase : Phase
  servos : Vector ServoView 16
deriving DecidableEq, Repr

/-- A command's one response (R58). -/
inductive Response where
  | ok
  | okConfig (config : ConfigView)
  | err (kind : ErrorKind)
deriving DecidableEq, Repr

/-- The state of the block.
`cfg` (R11) has one place per bus address 0x40..0x7E; `none` is an unregistered slot, whose fields hold no value
(R25; 93_implementation_defined.md U11; log entry 11). -/
structure State where
  /-- parameters, never changed by a step (R6; log entry 1) -/
  params : Params
  /-- the registry table (R11) -/
  cfg : Vector (Option ChipConfig) 63
  /-- step index of the init sequencer, 0 when no sequence runs (R20; log entry 10) -/
  seq : Nat
  /-- INPUT: command words on the command port as numbers, the next one first (92_eei_decisions.md D1; log entry 8) -/
  commands : List Nat
  /-- INPUT: the transport's answers to the next writes, the next one first (R3, R47; log entry 5) -/
  answers : List BusAnswer
  /-- how many free values have been taken (log entry 7) -/
  fresh : Nat
  /-- the bus trace since reset, oldest first (R8; log entry 9) -/
  trace : List BusEvent
  /-- the responses since reset, oldest first (R58; log entry 9) -/
  responses : List Response
deriving DecidableEq, Repr

/-- Why the machine stops with a fault: no reason exists. Every error of the spec ends the COMMAND with a response and the
block goes on to the next one (R146, R149), which is a next state (log entry 13). -/
inductive Fault where
deriving DecidableEq, Repr

/-- Why the model has no meaning for a command. -/
inductive Refusal where
  /-- Raised by an arm of `exec` whose instruction has no meaning yet; no arm does. Safe: the machine stops. -/
  | notModelled (mnemonic : String)
deriving DecidableEq, Repr

/-- The block right after reset (R25, R160): every slot unregistered, `seq = 0`, the trace empty, no response pending;
parameters at their defaults (R6), no input given yet (DESIGN CHOICE, log entries 5, 7 and 8). -/
def State.reset : State where
  params := defaultParams
  cfg := Vector.replicate 63 none
  seq := 0
  commands := []
  answers := []
  fresh := 0
  trace := []
  responses := []

end Sys2Proof.Machine
end

