-- ==== Sys2Proof/Machine/Flags.lean ====
section
/-! DEFINITION. The block has no flags, condition codes or predicates (spec/10_state.md R21): no command computes one.
A command's outcome is its response; this file gives the response's numeric code (spec/60_exceptions.md R140). -/

namespace Sys2Proof.Machine

/-- The code of an error kind (R140). -/
def ErrorKind.code : ErrorKind → Nat
  | .invalidAddress => 1
  | .channelOutOfRange => 2
  | .busError => 3
  | .uncalibratedServo => 4
  | .illegalCommand => 5

/-- The code of a response: 0 for the normal ends (R140). -/
def Response.code : Response → Nat
  | .ok => 0
  | .okConfig _ => 0
  | .err kind => kind.code

end Sys2Proof.Machine
end

