-- ==== Sys2Proof/Machine/Operands.lean ====
section
/-! DEFINITION. The arithmetic of the spec (spec/00_scope.md R7) and every clamp of an operand
(spec/30_encoding.md R51; spec/44_bringup.md R128; spec/40_register_protocol.md R72). -/

namespace Sys2Proof.Machine

/-- `clamp(x, lo, hi)` (R7). -/
def clamp (x lo hi : Int) : Int := if x < lo then lo else if hi < x then hi else x

/-- Floor division (R7). For a divisor of 0, which no parameter satisfying `Params.valid` gives, it is 0 (log entry 19). -/
def fdiv (a b : Int) : Int := a.fdiv b

/-- `clamp(f, 40, 1000)` (R128). -/
def clampFrequency (f : Int) : Nat := (clamp f 40 1000).toNat

/-- `clamp(ch, 1, 16) - 1`, the index of a channel's servo entry (R51, R12). -/
def channelIndex (ch : Int) : Fin 16 := Fin.ofNat 16 (clamp ch 1 16 - 1).toNat

/-- `clamp(p, 0, 15)` (R72). -/
def clampPin (p : Int) : Nat := (clamp p 0 15).toNat

/-- `clamp(x, 0, 180)` (R51). -/
def clampAngle (x : Int) : Int := clamp x 0 180

/-- `clamp(x, -100, 100)` (R51). -/
def clampSpeed (x : Int) : Int := clamp x (-100) 100

/-- `clamp(n, 0, 4095)` as the 12-bit count it then is (R72). -/
def clampCount (n : Int) : Count := BitVec.ofInt 12 (clamp n 0 4095)

/-- `n & 0xFF = n[7:0]` (R71). -/
def lowByte (n : Count) : Byte := n.extractLsb' 0 8

/-- `(n >> 8) & 0x0F = n[11:8]` (R71). -/
def highByte (n : Count) : Byte := (n.extractLsb' 8 4).zeroExtend 8

end Sys2Proof.Machine
end

