-- ==== Sys2Proof/Machine/Ops.lean ====
section
/-! DEFINITION. The named operations every command is written from: fetching a command word, the slot accessors, one call
of the transport (spec/00_scope.md R8), taking an error (spec/60_exceptions.md R146), answering the host
(spec/30_encoding.md R58). -/

namespace Sys2Proof.Machine

/-! ## A command in progress -/

/-- What a procedure of the spec's pseudocode does: it goes on with a value, or it has executed `raise kind` (R8). In both
cases the state holds every write made so far. -/
inductive Run (α : Type) where
  | done (value : α) (s : State)
  | raised (kind : ErrorKind) (s : State)

/-- The next line of the pseudocode runs only if the line before did not raise (R8, R146). -/
def Run.andThen {α β : Type} (r : Run α) (next : α → State → Run β) : Run β :=
  match r with
  | .done value s => next value s
  | .raised kind s => .raised kind s

/-! ## The ports -/

/-- Take the next command word from the command port (R9; 92_eei_decisions.md D1). -/
def fetch (s : State) : Option (Nat × State) :=
  match s.commands with
  | [] => none
  | w :: rest => some (w, { s with commands := rest })

/-- `respond v`: the command ends with one response (R8, R58). -/
def State.respond (s : State) (r : Response) : State := { s with responses := s.responses ++ [r] }

/-- TAKING AN ERROR, the entry `raise E` (R146): the command is over, every write made before stays, nothing is saved,
`seq` returns to 0 and the response is `Err(E)`. There is no handler, no saved address, no mode, so there is no return
from it either: the next command is accepted as after `Ok` (R149). -/
def State.takeError (s : State) (kind : ErrorKind) : State := { s with seq := 0 }.respond (.err kind)

/-- The end of a command: its response, or the error it raised. -/
def Run.finish (r : Run Response) : State :=
  match r with
  | .done response s => s.respond response
  | .raised kind s => s.takeError kind

/-! ## The bus transport -/

/-- The transport's answer to the next write: the next listed one, else a free value (R3, R47; log entry 5). -/
def State.nextAnswer (s : State) : BusAnswer :=
  match s.answers with
  | ans :: _ => ans
  | [] => Config.freeAnswer s.fresh

/-- That answer is taken. -/
def State.dropAnswer (s : State) : State :=
  match s.answers with
  | _ :: rest => { s with answers := rest }
  | [] => { s with fresh := s.fresh + 1 }

/-- Append one event to the bus trace (R8). -/
def State.logEvent (s : State) (e : BusEvent) : State := { s with trace := s.trace ++ [e] }

/-- `MemWrite((a, r), 1, v)`: one call of `writeRegister` (R8, R47). -/
def memWrite (a r v : Byte) (s : State) : Run Unit :=
  match s.nextAnswer with
  | .success => .done () (s.dropAnswer.logEvent (.write a r v .success))
  | .busError => .raised .busError (s.dropAnswer.logEvent (.write a r v .busError))

/-- `Delay(n)`: one call of `delayMicroseconds`, which cannot fail (R8, R47). -/
def delay (n : Nat) (s : State) : Run Unit := .done () (s.logEvent (.delay n))

/-- One bus event a procedure asks for, at the bus address of its command. -/
inductive BusOp where
  | write (register value : Byte)
  | delay (micros : Nat)
deriving DecidableEq, Repr

/-- Perform one bus event at bus address `a`. -/
def performOp (a : Byte) (op : BusOp) (s : State) : Run Unit :=
  match op with
  | .write r v => memWrite a r v s
  | .delay n => delay n s

/-- Perform bus events in order up to the first `BusError` (R42). -/
def performAll (a : Byte) (ops : List BusOp) (s : State) : Run Unit :=
  match ops with
  | [] => .done () s
  | op :: rest => (performOp a op s).andThen fun _ s' => performAll a rest s'

/-! ## The free value of `draw` -/

/-- `draw({0, ..., 4095})` (R8, R104): a free value (log entry 6). -/
def State.drawCount (s : State) : Count := Config.freeCount s.fresh

/-- That value is taken. -/
def State.dropDraw (s : State) : State := { s with fresh := s.fresh + 1 }

/-! ## The registry table -/

/-- `valid_address(a)` (R83). -/
def validAddress (a : Byte) : Bool := decide (0x40 ≤ a.toNat) && decide (a.toNat ≤ 0x7E)

/-- The place of bus address `a` in the table (R11). -/
def slotIndex (a : Byte) : Nat := a.toNat - 0x40

/-- `cfg[a]`: `none` while unregistered, and for an address that has no slot (R8, R11, R80). -/
def State.slot (s : State) (a : Byte) : Option ChipConfig :=
  if validAddress a then s.cfg[slotIndex a]?.getD none else none

/-- Write the slot of a valid address; an invalid address has none (R11). -/
def State.setSlot (s : State) (a : Byte) (c : ChipConfig) : State :=
  if validAddress a then { s with cfg := s.cfg.setIfInBounds (slotIndex a) (some c) } else s

/-- `cfg[a].phase` (R19). -/
def State.phase (s : State) (a : Byte) : Phase :=
  match s.slot a with
  | none => .unregistered
  | some c =>
    match c.phase with
    | .initializing => .initializing
    | .running => .running

/-- The entry of a channel index (R12). -/
def ChipConfig.servo (c : ChipConfig) (k : Fin 16) : ServoConfig := c.servos[k]

/-- Write the entry of a channel index (R12). -/
def ChipConfig.setServo (c : ChipConfig) (k : Fin 16) (sv : ServoConfig) : ChipConfig :=
  { c with servos := c.servos.set k sv }

end Sys2Proof.Machine
end

