-- ==== Sys2Proof/Machine/Sequencer.lean ====
section
/-! DEFINITION. The prescaler and the init sequence (spec/44_bringup.md R120 to R123, R127). -/

namespace Sys2Proof.Machine

/-- `prescale(f) = fdiv(25000000 + 2048*f, 4096*f) - 1` (R120). -/
def prescale (f : Nat) : Int := fdiv (25000000 + 2048 * (f : Int)) (4096 * (f : Int)) - 1

/-- The byte written to PRESCALE (R120). -/
def prescaleByte (f : Nat) : Byte := BitVec.ofInt 8 (prescale f)

/-- The nine events of the init sequence in their fixed order (R122). -/
def initScript (p : Params) (f : Nat) : List BusOp :=
  [ .write 0x00 p.mode1Sleep,
    .write 0xFE (prescaleByte f),
    .write 0xFA 0x00,
    .write 0xFB 0x00,
    .write 0xFC 0x00,
    .write 0xFD 0x00,
    .write 0x00 p.mode1Wake,
    .delay p.initDelayUs,
    .write 0x00 p.mode1Restart ]

/-- Write the sequencer's step index (R20). -/
def State.setSeq (s : State) (n : Nat) : State := { s with seq := n }

/-- Perform the events from step `n` on, `seq` naming the event in progress; `seq` is 0 after the last one and after an
abort (R20, R122, R123). -/
def runSequence (a : Byte) (n : Nat) (ops : List BusOp) (s : State) : Run Unit :=
  match ops with
  | [] => .done () (s.setSeq 0)
  | op :: rest =>
    match performOp a op (s.setSeq n) with
    | .done _ s' => runSequence a (n + 1) rest s'
    | .raised kind s' => .raised kind (s'.setSeq 0)

/-- `init_sequence(a, f)` (R122). -/
def initSequence (a : Byte) (f : Nat) (s : State) : Run Unit := runSequence a 1 (initScript s.params f) s

end Sys2Proof.Machine
end

