-- ==== Sys2Proof/Machine/Registry.lean ====
section
/-! DEFINITION. The chip configuration registry: lookup and creation (spec/41_registry.md R80 to R85), the default
configuration, and `getChipConfig` (R84). -/

namespace Sys2Proof.Machine

/-- Entry `k` of a new slot (R82). -/
def defaultServo (k : Fin 16) : ServoConfig where
  pinNumber := BitVec.ofNat 4 k.val
  minOffset := 5
  midOffset := 15
  maxOffset := 25
  position := .unset

/-- `default_config(f')` with the phase its creation leaves (R81, R82). -/
def defaultConfig (f : Nat) : ChipConfig where
  frequency := f
  phase := .running
  servos := Vector.ofFn defaultServo

/-- What `lookup_or_create` returns: Hit or Created (R81), with the slot's content at that moment. -/
structure Lookup where
  created : Bool
  config : ChipConfig

/-- `lookup_or_create(a, f)`, the first step of every command (R81, R83, R85). -/
def lookupOrCreate (a : Byte) (f : Int) (s : State) : Run Lookup :=
  if validAddress a then
    match s.slot a with
    | some c => .done { created := false, config := c } s
    | none =>
      let new := defaultConfig (clampFrequency f)
      (initSequence a (clampFrequency f) s).andThen fun _ s' => .done { created := true, config := new } (s'.setSlot a new)
  else .raised .invalidAddress s

/-- `FREQ_DEFAULT`, the frequency every command but `init` creates a slot with (R6, R81). -/
def freqDefault : Int := 50

/-- The legacy view of a position: -1 for Unset (R17). -/
def Position.legacy : Position → Int
  | .unset => -1
  | .standard angle => angle
  | .continuous speed => speed

/-- An entry as `getChipConfig` answers it; `id = k + 1` (R14, R58). -/
def servoView (k : Fin 16) (sv : ServoConfig) : ServoView where
  id := k.val + 1
  pinNumber := sv.pinNumber
  minOffset := sv.minOffset
  midOffset := sv.midOffset
  maxOffset := sv.maxOffset
  position := sv.position
  legacyPosition := sv.position.legacy

/-- The copy of slot `a` that `getChipConfig` answers (R58). -/
def configView (a : Byte) (c : ChipConfig) : ConfigView where
  address := a
  frequency := c.frequency
  phase := match c.phase with
    | .initializing => .initializing
    | .running => .running
  servos := Vector.ofFn fun k => servoView k (c.servo k)

/-- `getChipConfig(address)` (R84). -/
def execGetChipConfig (a : Byte) (s : State) : Host.Outcome State Fault Refusal :=
  .next ((lookupOrCreate a freqDefault s).andThen fun found s1 => .done (.okConfig (configView a found.config)) s1).finish

end Sys2Proof.Machine
end

