-- ==== Sys2Proof/Machine/Bringup.lean ====
section
/-! DEFINITION. The commands of the initialization state machine, `init` and `reset` (spec/44_bringup.md R124 to R126). -/

namespace Sys2Proof.Machine

/-- What `init` and `reset` do to a registered slot: `phase` becomes Initializing before step 1 and Running after step 9,
and stays Initializing when the sequence is aborted (R126). `c` is the slot's content with the frequency to use. -/
def bringUp (a : Byte) (c : ChipConfig) (s : State) : Run Response :=
  (initSequence a c.frequency (s.setSlot a { c with phase := .initializing })).andThen fun _ s' =>
    .done .ok (s'.setSlot a { c with phase := .running })

/-- `init(address, frequency)`: on a miss the creating sequence was the init; on a hit the frequency is stored before the
first write (R124). -/
def execInit (a : Byte) (f : Int) (s : State) : Host.Outcome State Fault Refusal :=
  .next ((lookupOrCreate a f s).andThen fun found s1 =>
    if found.created then .done .ok s1
    else bringUp a { found.config with frequency := clampFrequency f } s1).finish

/-- `reset(address)`: the sequence again, at the stored frequency (R125). -/
def execReset (a : Byte) (s : State) : Host.Outcome State Fault Refusal :=
  .next ((lookupOrCreate a freqDefault s).andThen fun found s1 =>
    if found.created then .done .ok s1 else bringUp a found.config s1).finish

end Sys2Proof.Machine
end

