-- ==== Sys2Proof/Machine/Calibration.lean ====
section
/-! DEFINITION. The servo calibration model and `setServoLimits` (spec/42_calibration.md R90 to R93). -/

namespace Sys2Proof.Machine

/-- `midpoint(mn, mx) = fdiv(mx - mn, 2) + mn` in the integers (R91). -/
def midpointOffset (mn mx : Int) : Int := fdiv (mx - mn) 2 + mn

/-- `setOffsetsFromFreq(s, mn, mx, md?)`: the three bounds are stored as given, the middle one the midpoint when it is
omitted, which lies between the two and so is not negative (R91); nothing else is written and nothing is checked (R90,
R93). -/
def setOffsets (sv : ServoConfig) (mn mx : Nat) (md : Option Nat) : ServoConfig :=
  { sv with
    minOffset := mn
    midOffset := match md with
      | some given => given
      | none => (midpointOffset mn mx).toNat
    maxOffset := mx }

/-- `setServoLimits(channel, minOffset, maxOffset, midOffset?, address)` (R92). -/
def execSetServoLimits (ch : Int) (mn mx : Nat) (md : Option Nat) (a : Byte) (s : State) :
    Host.Outcome State Fault Refusal :=
  .next ((lookupOrCreate a freqDefault s).andThen fun found s1 =>
    let k := channelIndex ch
    .done .ok (s1.setSlot a (found.config.setServo k (setOffsets (found.config.servo k) mn mx md)))).finish

end Sys2Proof.Machine
end

