-- ==== Sys2Proof/Machine/Encoder.lean ====
section
/-! DEFINITION. The pulse-width register encoder and `setPinPulseRange` (spec/40_register_protocol.md R70 to R75). -/

namespace Sys2Proof.Machine

/-- `slot(p) = 0x06 + 4*p` (R33). -/
def slotBase (p : Nat) : Byte := BitVec.ofNat 8 (0x06 + 4 * p)

/-- The four writes of the encoder: on-low, on-high, off-low, off-high (R70). -/
def channelScript (p on off : Int) : List BusOp :=
  [ .write (slotBase (clampPin p)) (lowByte (clampCount on)),
    .write (slotBase (clampPin p) + 1) (highByte (clampCount on)),
    .write (slotBase (clampPin p) + 2) (lowByte (clampCount off)),
    .write (slotBase (clampPin p) + 3) (highByte (clampCount off)) ]

/-- `writeChannel(a, p, on, off)` (R70). -/
def writeChannel (a : Byte) (p on off : Int) (s : State) : Run Unit := performAll a (channelScript p on off) s

/-- `setPinPulseRange(pin, onStep, offStep, address)` (R73). -/
def execSetPinPulseRange (pin on off : Int) (a : Byte) (s : State) : Host.Outcome State Fault Refusal :=
  .next ((lookupOrCreate a freqDefault s).andThen fun _ s1 =>
    (writeChannel a pin on off s1).andThen fun _ s2 => .done .ok s2).finish

end Sys2Proof.Machine
end

