-- ==== Sys2Proof/Machine/Pulse.lean ====
section
/-! DEFINITION. Pulse Math and the two motion commands (spec/43_pulse_math.md R100 to R110). -/

namespace Sys2Proof.Machine

/-- `frequencyOffset(f, t) = fdiv(t * 4096 * f, FO_DIV)` (R100). -/
def frequencyOffset (foDiv f t : Nat) : Int := fdiv ((t : Int) * 4096 * (f : Int)) (foDiv : Int)

/-- `start` of `counts(f, s)` (R101). -/
def startCount (p : Params) (f : Nat) (sv : ServoConfig) : Int := frequencyOffset p.foDiv f sv.minOffset

/-- `mid` of `counts(f, s)` (R101). -/
def midCount (p : Params) (f : Nat) (sv : ServoConfig) : Int := frequencyOffset p.foDiv f sv.midOffset

/-- `end` of `counts(f, s)` (R101). -/
def endCount (p : Params) (f : Nat) (sv : ServoConfig) : Int := frequencyOffset p.foDiv f sv.maxOffset

/-- `ordered(s)`: the calibration invariant (R103). -/
def ordered (sv : ServoConfig) : Bool :=
  decide (sv.minOffset ≤ sv.midOffset) && decide (sv.midOffset ≤ sv.maxOffset)

/-- `standard_pwm(f, s, angle)` for an angle in 0..180 (R102). -/
def standardPwm (p : Params) (f : Nat) (sv : ServoConfig) (angle : Int) : Int :=
  clamp (startCount p f sv + fdiv (angle * (endCount p f sv - startCount p f sv)) 180)
    (startCount p f sv) (endCount p f sv)

/-- `continuous_pwm(f, s, speed)` for a speed in -100..100; positive is forward (R107). -/
def continuousPwm (p : Params) (f : Nat) (sv : ServoConfig) (speed : Int) : Int :=
  if speed = 0 then midCount p f sv
  else if 0 < speed then midCount p f sv + fdiv (speed * (endCount p f sv - midCount p f sv)) 100
  else midCount p f sv - fdiv (-speed * (midCount p f sv - startCount p f sv)) 100

/-- The end both motion commands share: store the position, then write the pin's slot with `onStep = 0` and
`offStep = pwm` (R105, R106). The position is stored before the first write and stays when one fails (R146). -/
def moveServo (a : Byte) (c : ChipConfig) (k : Fin 16) (pos : Position) (pwm : Int) (s : State) : Run Response :=
  (writeChannel a (c.servo k).pinNumber.toNat 0 pwm
    (s.setSlot a (c.setServo k { c.servo k with position := pos }))).andThen fun _ s' => .done .ok s'

/-- `setStandardServoAngle(channel, angleDegrees, address)` (R105); the draw of R104 where the order is broken. -/
def execSetStandardServoAngle (ch x : Int) (a : Byte) (s : State) : Host.Outcome State Fault Refusal :=
  .next ((lookupOrCreate a freqDefault s).andThen fun found s1 =>
    let k := channelIndex ch
    let angle := clampAngle x
    if ordered (found.config.servo k) then
      moveServo a found.config k (.standard angle)
        (standardPwm s1.params found.config.frequency (found.config.servo k) angle) s1
    else moveServo a found.config k (.standard angle) s1.drawCount.toNat s1.dropDraw).finish

/-- `setContinuousServoSpeed(channel, speedPercent, address)` (R106); the draw of R104 where the order is broken and the
speed is not 0. -/
def execSetContinuousServoSpeed (ch x : Int) (a : Byte) (s : State) : Host.Outcome State Fault Refusal :=
  .next ((lookupOrCreate a freqDefault s).andThen fun found s1 =>
    let k := channelIndex ch
    let speed := clampSpeed x
    if speed = 0 ∨ ordered (found.config.servo k) then
      moveServo a found.config k (.continuous speed)
        (continuousPwm s1.params found.config.frequency (found.config.servo k) speed) s1
    else moveServo a found.config k (.continuous speed) s1.drawCount.toNat s1.dropDraw).finish

end Sys2Proof.Machine
end

