-- ==== Sys2Proof/Machine/Dispatch.lean ====
section
/-! DEFINITION. One command's meaning, chosen by its operation (spec/30_encoding.md R52). -/

namespace Sys2Proof.Machine

def exec (i : Instr) (s : State) : Host.Outcome State Fault Refusal :=
  match i with
  | .init address frequency => Sys2Proof.Machine.execInit address frequency s
  | .reset address => Sys2Proof.Machine.execReset address s
  | .setPinPulseRange pin onStep offStep address => Sys2Proof.Machine.execSetPinPulseRange pin onStep offStep address s
  | .setStandardServoAngle channel angle address => Sys2Proof.Machine.execSetStandardServoAngle channel angle address s
  | .setContinuousServoSpeed channel speed address => Sys2Proof.Machine.execSetContinuousServoSpeed channel speed address s
  | .setServoLimits channel minOffset maxOffset midOffset address => Sys2Proof.Machine.execSetServoLimits channel minOffset maxOffset midOffset address s
  | .getChipConfig address => Sys2Proof.Machine.execGetChipConfig address s

end Sys2Proof.Machine
end

