-- ==== Sys2Proof/Machine/Step.lean ====
section
/-! DEFINITION. One step of the machine: one command, taken from the command port and run to its response
(spec/00_scope.md R3, R9). -/

namespace Sys2Proof.Machine

/-- One command, taken and run to its response (R9). A word that decodes to no command takes `IllegalCommand`, with no
address check (R54, R145, R147). With no command on the port the block waits: nothing changes (log entry 8). -/
def step (s : State) : Host.Outcome State Fault Refusal :=
  match fetch s with
  | none => .next s
  | some (w, s') =>
    match decode s.params.operandW (portWord s.params w) with
    | .ok i => exec i s'
    | .error _ => .next (s'.takeError .illegalCommand)

/-- `s` with a command word on the command port, before the words already there (log entry 8). -/
def State.withFetchWord (s : State) (nbits w : Nat) : State :=
  { s with commands := tableWord nbits w :: s.commands }

end Sys2Proof.Machine
end

