-- ==== Sys2Proof/Machine/Image.lean ====
section
/-! DEFINITION. The chip image `img[a][r]`: the observation spec/20_memory.md R48 derives from the bus trace, held as a list
of (location, byte) cells in one canonical form. It is no state of the block (R23) and no command reads it. -/

namespace Sys2Proof.Machine

/-- Known bytes of the chips' register space, as cells with strictly rising locations; a location that is not listed is
"unknown" (R30, R48). -/
abbrev Memory := List Host.Cell

/-- The number of location `(a, r)` (R30). -/
def location (a r : Byte) : Nat := a.toNat * 256 + r.toNat

/-- The byte at a location; `none` is "unknown" (R48). -/
def Memory.read (m : Memory) (loc : Nat) : Option Byte :=
  match m with
  | [] => none
  | (l, v) :: rest => if l = loc then some v else Memory.read rest loc

/-- Store a byte, keeping the locations rising. -/
def Memory.write (m : Memory) (loc : Nat) (v : Byte) : Memory :=
  match m with
  | [] => [(loc, v)]
  | (l, u) :: rest =>
    if loc < l then (loc, v) :: (l, u) :: rest
    else if loc = l then (loc, v) :: rest
    else (l, u) :: Memory.write rest loc v

/-- Make a location unknown. -/
def Memory.forget (m : Memory) (loc : Nat) : Memory :=
  match m with
  | [] => []
  | (l, u) :: rest => if l = loc then rest else (l, u) :: Memory.forget rest loc

/-- Every listed location is above `lo`. -/
def Memory.above (m : Memory) (lo : Nat) : Bool :=
  match m with
  | [] => true
  | (l, _) :: _ => decide (lo < l)

/-- The canonical form: locations strictly rising. -/
def Memory.wf (m : Memory) : Bool :=
  match m with
  | [] => true
  | (l, _) :: rest => Memory.above rest l && Memory.wf rest

/-- The four broadcast registers 0xFA..0xFD (R32). -/
def isBroadcast (r : Byte) : Bool := decide (0xFA ≤ r.toNat) && decide (r.toNat ≤ 0xFD)

/-- The register of channel slot `p` that broadcast register `r` stands for (R32, R33). -/
def broadcastTarget (r : Byte) (p : Nat) : Byte := slotBase p + (r - 0xFA)

/-- A broadcast write sets the register in the first `n` channel slots. -/
def Memory.broadcast (m : Memory) (a r v : Byte) (n : Nat) : Memory :=
  match n with
  | 0 => m
  | p + 1 => (Memory.broadcast m a r v p).write (location a (broadcastTarget r p)) v

/-- What one event of the trace does to the image (R48; log entry 16). -/
def Memory.apply (m : Memory) (e : BusEvent) : Memory :=
  match e with
  | .write a r v .success =>
    if isBroadcast r then (m.write (location a r) v).broadcast a r v 16 else m.write (location a r) v
  | .write a r _ .busError => m.forget (location a r)
  | .delay _ => m

/-- The image a trace leaves (R48). -/
def imageOf (trace : List BusEvent) : Memory := trace.foldl Memory.apply []

/-- `img[a][r]` of a state; `none` is "unknown" (R48). -/
def State.image (s : State) (a r : Byte) : Option Byte := (imageOf s.trace).read (location a r)

end Sys2Proof.Machine
end

