-- ==== Sys2Proof/Safety.lean ====
section
/-! DEFINITION. The terms the statements use: the transport's coming answers, the event lists of spec/44_bringup.md R122 and
spec/40_register_protocol.md R70 and how a failing write cuts one short (spec/20_memory.md R42), and the invariants of
the state and of the bus trace (spec/10_state.md R18). -/

namespace Sys2Proof

/-- The frequency a command creates an unregistered slot with: `init` gives its operand, every other command 50 Hz, and
both are clamped (R81, R128). -/
def Instr.creationFrequency : Instr → Nat
  | .init _ frequency => Machine.clampFrequency frequency
  | _ => 50

namespace Machine

/-! ## The transport's coming answers -/

/-- The answers the transport gives to the next `n` writes (R3, R47). -/
def State.answersAhead (n : Nat) (s : State) : List BusAnswer :=
  match n with
  | 0 => []
  | n + 1 => s.nextAnswer :: State.answersAhead n s.dropAnswer

/-- The state after those `n` answers are taken. -/
def State.useAnswers (n : Nat) (s : State) : State :=
  match n with
  | 0 => s
  | n + 1 => State.useAnswers n s.dropAnswer

/-- The transport takes each of the next `n` writes. -/
abbrev State.allSucceed (n : Nat) (s : State) : Prop := s.answersAhead n = List.replicate n .success

/-- The transport takes the next `i` writes and fails the one after them. -/
abbrev State.failsAt (i : Nat) (s : State) : Prop :=
  s.answersAhead (i + 1) = List.replicate i .success ++ [.busError]

/-! ## Event lists -/

/-- The events of a list of bus operations when every write succeeds. -/
def eventsOf (a : Byte) (ops : List BusOp) : List BusEvent :=
  ops.map fun op => match op with
    | .write r v => .write a r v .success
    | .delay n => .delay n

/-- How many of the operations are writes. -/
def writesIn (ops : List BusOp) : Nat :=
  match ops with
  | [] => 0
  | .write _ _ :: rest => writesIn rest + 1
  | .delay _ :: rest => writesIn rest

/-- An event list cut short at the `BusError` that answers the write after the first `i` writes (R42). -/
def cutTrace (i : Nat) (events : List BusEvent) : List BusEvent :=
  match events with
  | [] => []
  | .delay n :: rest => .delay n :: cutTrace i rest
  | .write a r v ans :: rest =>
    match i with
    | 0 => [.write a r v .busError]
    | j + 1 => .write a r v ans :: cutTrace j rest

/-- The nine events of an init sequence (R122), every write succeeding. -/
def initEvents (p : Params) (a : Byte) (f : Nat) : List BusEvent :=
  [ .write a 0x00 p.mode1Sleep .success,
    .write a 0xFE (prescaleByte f) .success,
    .write a 0xFA 0 .success,
    .write a 0xFB 0 .success,
    .write a 0xFC 0 .success,
    .write a 0xFD 0 .success,
    .write a 0x00 p.mode1Wake .success,
    .delay p.initDelayUs,
    .write a 0x00 p.mode1Restart .success ]

/-- The four events of one channel update (R70), every write succeeding: `slot` is the slot's base register. -/
def channelEvents (a slot : Byte) (on off : Count) : List BusEvent :=
  [ .write a slot (lowByte on) .success,
    .write a (slot + 1) (highByte on) .success,
    .write a (slot + 2) (lowByte off) .success,
    .write a (slot + 3) (highByte off) .success ]

/-! ## How a command leaves the state -/

/-- The command took `n` answers, caused `events` and answered `r`. -/
def State.ended (s : State) (n : Nat) (events : List BusEvent) (r : Response) : State :=
  { s.useAnswers n with trace := s.trace ++ events, responses := s.responses ++ [r] }

/-- The command took `n` answers, caused `events` and raised `kind` (R146). -/
def State.failed (s : State) (n : Nat) (events : List BusEvent) (kind : ErrorKind) : State :=
  { s.useAnswers n with seq := 0, trace := s.trace ++ events, responses := s.responses ++ [.err kind] }

/-- The state in which a command goes on after it has created slot `a` at frequency `f` (R81). -/
def State.created (s : State) (a : Byte) (f : Nat) : State :=
  { (s.useAnswers 8).setSlot a (defaultConfig f) with seq := 0, trace := s.trace ++ initEvents s.params a f }

/-! ## Invariants -/

/-- The value of a position is in the range of its kind (R17). -/
def Position.inRange : Position → Bool
  | .unset => true
  | .standard angle => decide (0 ≤ angle) && decide (angle ≤ 180)
  | .continuous speed => decide (-100 ≤ speed) && decide (speed ≤ 100)

/-- A registered slot as R13, R15, R16 and R17 bound it: the frequency in [40, 1000], each pin the constant of its place,
each offset in its field, each position in range. -/
def ChipConfig.good (operandW : Nat) (c : ChipConfig) : Prop :=
  40 ≤ c.frequency ∧ c.frequency ≤ 1000 ∧
    ∀ k : Fin 16, (c.servo k).pinNumber = BitVec.ofNat 4 k.val ∧ (c.servo k).minOffset < 2 ^ operandW ∧
      (c.servo k).midOffset < 2 ^ operandW ∧ (c.servo k).maxOffset < 2 ^ operandW ∧
      (c.servo k).position.inRange = true

/-- The invariant of the state at every command boundary (R13, R15, R16, R17, R18, R20) and the parameters' constraints. -/
structure State.Inv (s : State) : Prop where
  params : s.params.valid = true
  seq : s.seq = 0
  slots : ∀ a c, s.slot a = some c → c.good s.params.operandW

/-- What the block may write to a register (R40, R71): MODE1 and PRESCALE any byte, the broadcast registers 0, the 64 channel
registers any byte with bits [7:4] of an `_H` register 0. -/
def writable (r v : Byte) : Bool :=
  decide (r = 0x00) || decide (r = 0xFE) ||
  (isBroadcast r && decide (v = 0)) ||
  (decide (0x06 ≤ r.toNat) && decide (r.toNat ≤ 0x45) && (decide (r.toNat % 2 = 0) || decide (v.toNat ≤ 15)))

/-- An event the block may cause: a write to a valid bus address (R31) as R40 allows, or a delay of at least 500 µs that
fits its `u32` (R47, R122). -/
def BusEvent.allowed : BusEvent → Bool
  | .write a r v _ => validAddress a && writable r v
  | .delay n => decide (500 ≤ n) && decide (n < 2 ^ 32)

/-- Every event of the trace is one the block may cause (R31, R40). -/
def TraceAllowed (trace : List BusEvent) : Prop := ∀ e ∈ trace, e.allowed = true

/-- The sequencing invariant (R127): every PRESCALE write comes right after a sleep write to the same chip that was answered
with success. -/
def PrescaleGuarded (sleep : Byte) (trace : List BusEvent) : Prop :=
  ∀ before after a v ans, trace = before ++ .write a 0xFE v ans :: after →
    ∃ earlier, before = earlier ++ [.write a 0x00 sleep .success]

end Machine

end Sys2Proof
end

