-- ==== Sys2Proof/Laws/State.lean ====
section
/-! SUPPORT. What each update of the state leaves in each field: no later proof unfolds a record update. -/

namespace Sys2Proof.Machine

variable (s : State)

@[simp] theorem respond_params (r : Response) : (s.respond r).params = s.params := rfl
@[simp] theorem respond_cfg (r : Response) : (s.respond r).cfg = s.cfg := rfl
@[simp] theorem respond_seq (r : Response) : (s.respond r).seq = s.seq := rfl
@[simp] theorem respond_commands (r : Response) : (s.respond r).commands = s.commands := rfl
@[simp] theorem respond_answers (r : Response) : (s.respond r).answers = s.answers := rfl
@[simp] theorem respond_fresh (r : Response) : (s.respond r).fresh = s.fresh := rfl
@[simp] theorem respond_trace (r : Response) : (s.respond r).trace = s.trace := rfl
@[simp] theorem respond_responses (r : Response) : (s.respond r).responses = s.responses ++ [r] := rfl

@[simp] theorem takeError_params (kind : ErrorKind) : (s.takeError kind).params = s.params := rfl
@[simp] theorem takeError_cfg (kind : ErrorKind) : (s.takeError kind).cfg = s.cfg := rfl
@[simp] theorem takeError_seq (kind : ErrorKind) : (s.takeError kind).seq = 0 := rfl
@[simp] theorem takeError_commands (kind : ErrorKind) : (s.takeError kind).commands = s.commands := rfl
@[simp] theorem takeError_answers (kind : ErrorKind) : (s.takeError kind).answers = s.answers := rfl
@[simp] theorem takeError_fresh (kind : ErrorKind) : (s.takeError kind).fresh = s.fresh := rfl
@[simp] theorem takeError_trace (kind : ErrorKind) : (s.takeError kind).trace = s.trace := rfl
@[simp] theorem takeError_responses (kind : ErrorKind) : (s.takeError kind).responses = s.responses ++ [.err kind] := rfl

@[simp] theorem logEvent_params (e : BusEvent) : (s.logEvent e).params = s.params := rfl
@[simp] theorem logEvent_cfg (e : BusEvent) : (s.logEvent e).cfg = s.cfg := rfl
@[simp] theorem logEvent_seq (e : BusEvent) : (s.logEvent e).seq = s.seq := rfl
@[simp] theorem logEvent_commands (e : BusEvent) : (s.logEvent e).commands = s.commands := rfl
@[simp] theorem logEvent_answers (e : BusEvent) : (s.logEvent e).answers = s.answers := rfl
@[simp] theorem logEvent_fresh (e : BusEvent) : (s.logEvent e).fresh = s.fresh := rfl
@[simp] theorem logEvent_trace (e : BusEvent) : (s.logEvent e).trace = s.trace ++ [e] := rfl
@[simp] theorem logEvent_responses (e : BusEvent) : (s.logEvent e).responses = s.responses := rfl

@[simp] theorem dropDraw_params : (s.dropDraw).params = s.params := rfl
@[simp] theorem dropDraw_cfg : (s.dropDraw).cfg = s.cfg := rfl
@[simp] theorem dropDraw_seq : (s.dropDraw).seq = s.seq := rfl
@[simp] theorem dropDraw_commands : (s.dropDraw).commands = s.commands := rfl
@[simp] theorem dropDraw_answers : (s.dropDraw).answers = s.answers := rfl
@[simp] theorem dropDraw_fresh : (s.dropDraw).fresh = s.fresh + 1 := rfl
@[simp] theorem dropDraw_trace : (s.dropDraw).trace = s.trace := rfl
@[simp] theorem dropDraw_responses : (s.dropDraw).responses = s.responses := rfl

@[simp] theorem setSeq_params (n : Nat) : (s.setSeq n).params = s.params := rfl
@[simp] theorem setSeq_cfg (n : Nat) : (s.setSeq n).cfg = s.cfg := rfl
@[simp] theorem setSeq_seq (n : Nat) : (s.setSeq n).seq = n := rfl
@[simp] theorem setSeq_commands (n : Nat) : (s.setSeq n).commands = s.commands := rfl
@[simp] theorem setSeq_answers (n : Nat) : (s.setSeq n).answers = s.answers := rfl
@[simp] theorem setSeq_fresh (n : Nat) : (s.setSeq n).fresh = s.fresh := rfl
@[simp] theorem setSeq_trace (n : Nat) : (s.setSeq n).trace = s.trace := rfl
@[simp] theorem setSeq_responses (n : Nat) : (s.setSeq n).responses = s.responses := rfl

@[simp] theorem dropAnswer_params : s.dropAnswer.params = s.params := by
  unfold State.dropAnswer; split <;> rfl
@[simp] theorem dropAnswer_cfg : s.dropAnswer.cfg = s.cfg := by
  unfold State.dropAnswer; split <;> rfl
@[simp] theorem dropAnswer_seq : s.dropAnswer.seq = s.seq := by
  unfold State.dropAnswer; split <;> rfl
@[simp] theorem dropAnswer_commands : s.dropAnswer.commands = s.commands := by
  unfold State.dropAnswer; split <;> rfl
@[simp] theorem dropAnswer_trace : s.dropAnswer.trace = s.trace := by
  unfold State.dropAnswer; split <;> rfl
@[simp] theorem dropAnswer_responses : s.dropAnswer.responses = s.responses := by
  unfold State.dropAnswer; split <;> rfl

@[simp] theorem useAnswers_params (n : Nat) : (s.useAnswers n).params = s.params := by
  induction n generalizing s with
  | zero => rfl
  | succ n ih => simp [State.useAnswers, ih]
@[simp] theorem useAnswers_cfg (n : Nat) : (s.useAnswers n).cfg = s.cfg := by
  induction n generalizing s with
  | zero => rfl
  | succ n ih => simp [State.useAnswers, ih]
@[simp] theorem useAnswers_seq (n : Nat) : (s.useAnswers n).seq = s.seq := by
  induction n generalizing s with
  | zero => rfl
  | succ n ih => simp [State.useAnswers, ih]
@[simp] theorem useAnswers_commands (n : Nat) : (s.useAnswers n).commands = s.commands := by
  induction n generalizing s with
  | zero => rfl
  | succ n ih => simp [State.useAnswers, ih]
@[simp] theorem useAnswers_trace (n : Nat) : (s.useAnswers n).trace = s.trace := by
  induction n generalizing s with
  | zero => rfl
  | succ n ih => simp [State.useAnswers, ih]
@[simp] theorem useAnswers_responses (n : Nat) : (s.useAnswers n).responses = s.responses := by
  induction n generalizing s with
  | zero => rfl
  | succ n ih => simp [State.useAnswers, ih]

@[simp] theorem setSlot_params (a : Byte) (c : ChipConfig) : (s.setSlot a c).params = s.params := by
  unfold State.setSlot; split <;> rfl
@[simp] theorem setSlot_seq (a : Byte) (c : ChipConfig) : (s.setSlot a c).seq = s.seq := by
  unfold State.setSlot; split <;> rfl
@[simp] theorem setSlot_commands (a : Byte) (c : ChipConfig) : (s.setSlot a c).commands = s.commands := by
  unfold State.setSlot; split <;> rfl
@[simp] theorem setSlot_answers (a : Byte) (c : ChipConfig) : (s.setSlot a c).answers = s.answers := by
  unfold State.setSlot; split <;> rfl
@[simp] theorem setSlot_fresh (a : Byte) (c : ChipConfig) : (s.setSlot a c).fresh = s.fresh := by
  unfold State.setSlot; split <;> rfl
@[simp] theorem setSlot_trace (a : Byte) (c : ChipConfig) : (s.setSlot a c).trace = s.trace := by
  unfold State.setSlot; split <;> rfl
@[simp] theorem setSlot_responses (a : Byte) (c : ChipConfig) : (s.setSlot a c).responses = s.responses := by
  unfold State.setSlot; split <;> rfl

end Sys2Proof.Machine
end

