-- ==== Sys2Proof/Laws/Answers.lean ====
section
/-! SUPPORT. The transport's answers: what taking them depends on and leaves alone, and that the next `n` answers either
are all successes or hold a first failure (spec/20_memory.md R47). -/

namespace Sys2Proof.Machine

/-- Two states with the same inputs get the same next answer. -/
theorem nextAnswer_congr {s t : State} (ha : s.answers = t.answers) (hf : s.fresh = t.fresh) :
    s.nextAnswer = t.nextAnswer := by
  simp [State.nextAnswer, ha, hf]

theorem dropAnswer_answers_congr {s t : State} (ha : s.answers = t.answers) :
    s.dropAnswer.answers = t.dropAnswer.answers := by
  unfold State.dropAnswer
  rw [ha]
  cases h : t.answers <;> simp_all

theorem dropAnswer_fresh_congr {s t : State} (ha : s.answers = t.answers) (hf : s.fresh = t.fresh) :
    s.dropAnswer.fresh = t.dropAnswer.fresh := by
  unfold State.dropAnswer
  rw [ha]
  cases h : t.answers <;> simp_all

/-- The coming answers depend on the inputs only. -/
theorem answersAhead_congr {s t : State} (n : Nat) (ha : s.answers = t.answers) (hf : s.fresh = t.fresh) :
    s.answersAhead n = t.answersAhead n := by
  induction n generalizing s t with
  | zero => rfl
  | succ n ih =>
    simp only [State.answersAhead, nextAnswer_congr ha hf,
      ih (dropAnswer_answers_congr ha) (dropAnswer_fresh_congr ha hf)]

theorem useAnswers_answers_congr {s t : State} (n : Nat) (ha : s.answers = t.answers) (hf : s.fresh = t.fresh) :
    (s.useAnswers n).answers = (t.useAnswers n).answers ∧ (s.useAnswers n).fresh = (t.useAnswers n).fresh := by
  induction n generalizing s t with
  | zero => exact ⟨ha, hf⟩
  | succ n ih => exact ih (dropAnswer_answers_congr ha) (dropAnswer_fresh_congr ha hf)

/-- Taking an answer commutes with writing any field that is no input. -/
theorem dropAnswer_update (s : State) (cfg seq trace responses) :
    ({ s with cfg := cfg, seq := seq, trace := trace, responses := responses } : State).dropAnswer =
      { s.dropAnswer with cfg := cfg, seq := seq, trace := trace, responses := responses } := by
  cases h : s.answers <;> simp [State.dropAnswer, h]

theorem useAnswers_update (s : State) (n : Nat) (cfg seq trace responses) :
    ({ s with cfg := cfg, seq := seq, trace := trace, responses := responses } : State).useAnswers n =
      { s.useAnswers n with cfg := cfg, seq := seq, trace := trace, responses := responses } := by
  induction n generalizing s with
  | zero => rfl
  | succ n ih => rw [State.useAnswers, dropAnswer_update, ih]; rfl

/-- The next `n` writes all succeed, or one of them is the first to fail. -/
theorem allSucceed_or_failsAt (n : Nat) (s : State) : s.allSucceed n ∨ ∃ i, i < n ∧ s.failsAt i := by
  induction n generalizing s with
  | zero => exact .inl rfl
  | succ n ih =>
    cases hs : s.nextAnswer with
    | busError => exact .inr ⟨0, by omega, by simp [State.failsAt, State.answersAhead, hs]⟩
    | success =>
      rcases ih s.dropAnswer with h | ⟨i, hi, h⟩
      · left; simp [State.allSucceed, State.answersAhead, hs, List.replicate_succ, h]
      · right
        refine ⟨i + 1, by omega, ?_⟩
        have h' : s.dropAnswer.answersAhead (i + 1) = List.replicate i .success ++ [.busError] := h
        unfold State.failsAt
        rw [State.answersAhead, h', hs, List.replicate_succ]
        rfl

theorem allSucceed_succ {s : State} {n : Nat} :
    s.allSucceed (n + 1) ↔ s.nextAnswer = .success ∧ s.dropAnswer.allSucceed n := by
  simp [State.allSucceed, State.answersAhead, List.replicate_succ]

theorem failsAt_zero {s : State} : s.failsAt 0 ↔ s.nextAnswer = .busError := by
  simp [State.failsAt, State.answersAhead]

theorem failsAt_succ {s : State} {i : Nat} :
    s.failsAt (i + 1) ↔ s.nextAnswer = .success ∧ s.dropAnswer.failsAt i := by
  unfold State.failsAt
  rw [State.answersAhead, List.replicate_succ, List.cons_append, List.cons_eq_cons]

theorem allSucceed_congr {s t : State} (n : Nat) (ha : s.answers = t.answers) (hf : s.fresh = t.fresh) :
    s.allSucceed n ↔ t.allSucceed n := by
  simp only [State.allSucceed, answersAhead_congr n ha hf]

theorem failsAt_congr {s t : State} (i : Nat) (ha : s.answers = t.answers) (hf : s.fresh = t.fresh) :
    s.failsAt i ↔ t.failsAt i := by
  simp only [State.failsAt, answersAhead_congr (i + 1) ha hf]

/-- A first failure among the next `n` writes excludes that they all succeed. -/
theorem not_allSucceed_of_failsAt {n i : Nat} {s : State} (hi : i < n) (h : s.failsAt i) : ¬ s.allSucceed n := by
  induction n generalizing s i with
  | zero => omega
  | succ n ih =>
    intro hs
    obtain ⟨h1, h2⟩ := allSucceed_succ.1 hs
    cases i with
    | zero => rw [failsAt_zero, h1] at h; cases h
    | succ i => exact ih (by omega) (failsAt_succ.1 h).2 h2

/-! No update but taking an answer or a draw changes which answers come. -/

theorem logEvent_allSucceed (s : State) (e : BusEvent) (n : Nat) : (s.logEvent e).allSucceed n ↔ s.allSucceed n :=
  allSucceed_congr (s := s.logEvent e) n (by simp) (by simp)

theorem logEvent_failsAt (s : State) (e : BusEvent) (i : Nat) : (s.logEvent e).failsAt i ↔ s.failsAt i :=
  failsAt_congr (s := s.logEvent e) i (by simp) (by simp)

theorem setSlot_allSucceed (s : State) (a : Byte) (c : ChipConfig) (n : Nat) : (s.setSlot a c).allSucceed n ↔ s.allSucceed n :=
  allSucceed_congr (s := s.setSlot a c) n (by simp) (by simp)

theorem setSlot_failsAt (s : State) (a : Byte) (c : ChipConfig) (i : Nat) : (s.setSlot a c).failsAt i ↔ s.failsAt i :=
  failsAt_congr (s := s.setSlot a c) i (by simp) (by simp)

theorem setSeq_allSucceed (s : State) (m : Nat) (n : Nat) : (s.setSeq m).allSucceed n ↔ s.allSucceed n :=
  allSucceed_congr (s := s.setSeq m) n (by simp) (by simp)

theorem setSeq_failsAt (s : State) (m : Nat) (i : Nat) : (s.setSeq m).failsAt i ↔ s.failsAt i :=
  failsAt_congr (s := s.setSeq m) i (by simp) (by simp)

end Sys2Proof.Machine
end

