-- ==== Sys2Proof/Laws/Ops.lean ====
section
/-! SUPPORT. One law per shared operation of Machine/Ops.lean, said once: what a procedure's composition, a list of bus
events and the registry table's accessors can do. -/

namespace Sys2Proof.Machine

/-! ## Composition -/

@[simp] theorem andThen_done {α β : Type} (v : α) (s : State) (next : α → State → Run β) :
    (Run.done v s).andThen next = next v s := rfl

@[simp] theorem andThen_raised {α β : Type} (k : ErrorKind) (s : State) (next : α → State → Run β) :
    (Run.raised k s : Run α).andThen next = .raised k s := rfl

@[simp] theorem finish_done (r : Response) (s : State) : (Run.done r s).finish = s.respond r := rfl

@[simp] theorem finish_raised (k : ErrorKind) (s : State) : (Run.raised k s : Run Response).finish = s.takeError k := rfl

/-- A command answers exactly once, whatever its procedure does. -/
theorem finish_responses (r : Run Response) :
    (∃ v s, r = .done v s ∧ r.finish.responses = s.responses ++ [v]) ∨
    (∃ k s, r = .raised k s ∧ r.finish.responses = s.responses ++ [.err k]) := by
  cases r with
  | done v s => exact .inl ⟨v, s, rfl, rfl⟩
  | raised k s => exact .inr ⟨k, s, rfl, rfl⟩

/-! ## Bus events -/

theorem memWrite_of_success {a r v : Byte} {s : State} (h : s.nextAnswer = .success) :
    memWrite a r v s = .done () (s.dropAnswer.logEvent (.write a r v .success)) := by
  simp [memWrite, h]

theorem memWrite_of_busError {a r v : Byte} {s : State} (h : s.nextAnswer = .busError) :
    memWrite a r v s = .raised .busError (s.dropAnswer.logEvent (.write a r v .busError)) := by
  simp [memWrite, h]

/-- Every write succeeds: all events happen, in order, and as many answers are taken as there are writes. -/
theorem performAll_of_allSucceed (a : Byte) (ops : List BusOp) (s : State) (h : s.allSucceed (writesIn ops)) :
    performAll a ops s = .done () { s.useAnswers (writesIn ops) with trace := s.trace ++ eventsOf a ops } := by
  induction ops generalizing s with
  | nil => simp [performAll, eventsOf, writesIn, State.useAnswers]
  | cons op rest ih =>
    cases op with
    | write r v =>
      obtain ⟨h1, h2⟩ := allSucceed_succ.1 h
      have h3 : (s.dropAnswer.logEvent (.write a r v .success)).allSucceed (writesIn rest) :=
        (logEvent_allSucceed s.dropAnswer _ _).2 h2
      simp only [performAll, performOp, memWrite_of_success h1, andThen_done, ih _ h3, writesIn, State.useAnswers]
      congr 1
      simp only [State.logEvent, dropAnswer_trace]
      rw [useAnswers_update s.dropAnswer (writesIn rest) s.dropAnswer.cfg s.dropAnswer.seq _ s.dropAnswer.responses]
      simp [eventsOf]
    | delay n =>
      have h3 : (s.logEvent (.delay n)).allSucceed (writesIn rest) := (logEvent_allSucceed s _ _).2 h
      simp only [performAll, performOp, delay, andThen_done, ih _ h3, writesIn]
      congr 1
      simp only [State.logEvent]
      rw [useAnswers_update s (writesIn rest) s.cfg s.seq _ s.responses]
      simp [eventsOf]

/-- A write fails: the events up to it happen and none after it. -/
theorem performAll_of_failsAt (a : Byte) (ops : List BusOp) (i : Nat) (s : State) (hi : i < writesIn ops)
    (h : s.failsAt i) :
    performAll a ops s =
      .raised .busError { s.useAnswers (i + 1) with trace := s.trace ++ cutTrace i (eventsOf a ops) } := by
  induction ops generalizing s i with
  | nil => simp [writesIn] at hi
  | cons op rest ih =>
    cases op with
    | write r v =>
      cases i with
      | zero =>
        simp [performAll, performOp, memWrite_of_busError (failsAt_zero.1 h), State.useAnswers, State.logEvent,
          eventsOf, cutTrace]
      | succ i =>
        obtain ⟨h1, h2⟩ := failsAt_succ.1 h
        have h3 : (s.dropAnswer.logEvent (.write a r v .success)).failsAt i :=
          (logEvent_failsAt s.dropAnswer _ _).2 h2
        simp only [writesIn] at hi
        simp only [performAll, performOp, memWrite_of_success h1, andThen_done, ih i _ (by omega) h3]
        congr 1
        rw [show s.useAnswers (i + 1 + 1) = s.dropAnswer.useAnswers (i + 1) from rfl]
        simp only [State.logEvent, dropAnswer_trace]
        rw [useAnswers_update s.dropAnswer (i + 1) s.dropAnswer.cfg s.dropAnswer.seq _ s.dropAnswer.responses]
        simp [eventsOf, cutTrace]
    | delay n =>
      have h3 : (s.logEvent (.delay n)).failsAt i := (logEvent_failsAt s _ _).2 h
      simp only [writesIn] at hi
      simp only [performAll, performOp, delay, andThen_done, ih i _ hi h3]
      congr 1
      simp only [State.logEvent]
      rw [useAnswers_update s (i + 1) s.cfg s.seq _ s.responses]
      simp [eventsOf, cutTrace]

/-! ## The registry table -/

theorem validAddress_iff (a : Byte) : validAddress a = true ↔ 0x40 ≤ a.toNat ∧ a.toNat ≤ 0x7E := by
  simp [validAddress]

theorem slotIndex_lt {a : Byte} (h : validAddress a = true) : slotIndex a < 63 := by
  have := (validAddress_iff a).1 h
  simp only [slotIndex]; omega

theorem slotIndex_inj {a b : Byte} (ha : validAddress a = true) (hb : validAddress b = true)
    (h : slotIndex a = slotIndex b) : a = b := by
  have h1 := (validAddress_iff a).1 ha
  have h2 := (validAddress_iff b).1 hb
  simp only [slotIndex] at h
  exact BitVec.eq_of_toNat_eq (by omega)

theorem validAddress_of_slot {s : State} {a : Byte} {c : ChipConfig} (h : s.slot a = some c) : validAddress a = true := by
  unfold State.slot at h
  split at h
  · assumption
  · cases h

/-- A slot is read from the table alone. -/
theorem slot_congr {s t : State} (h : s.cfg = t.cfg) (a : Byte) : s.slot a = t.slot a := by
  simp [State.slot, h]

@[simp] theorem respond_slot (s : State) (r : Response) (a : Byte) : (s.respond r).slot a = s.slot a := rfl
@[simp] theorem takeError_slot (s : State) (k : ErrorKind) (a : Byte) : (s.takeError k).slot a = s.slot a := rfl
@[simp] theorem logEvent_slot (s : State) (e : BusEvent) (a : Byte) : (s.logEvent e).slot a = s.slot a := rfl
@[simp] theorem dropDraw_slot (s : State) (a : Byte) : s.dropDraw.slot a = s.slot a := rfl
@[simp] theorem setSeq_slot (s : State) (n : Nat) (a : Byte) : (s.setSeq n).slot a = s.slot a := rfl
@[simp] theorem dropAnswer_slot (s : State) (a : Byte) : s.dropAnswer.slot a = s.slot a := slot_congr (by simp) a
@[simp] theorem useAnswers_slot (s : State) (n : Nat) (a : Byte) : (s.useAnswers n).slot a = s.slot a :=
  slot_congr (by simp) a

/-- Reading the slot just written gives what was written. -/
theorem setSlot_slot_same {s : State} {a : Byte} (c : ChipConfig) (h : validAddress a = true) :
    (s.setSlot a c).slot a = some c := by
  simp [State.slot, State.setSlot, h, slotIndex_lt h]

/-- Writing a slot leaves every other slot alone (R12). -/
theorem setSlot_slot_other (s : State) {a b : Byte} (c : ChipConfig) (h : b ≠ a) : (s.setSlot a c).slot b = s.slot b := by
  unfold State.setSlot
  split
  · rename_i ha
    unfold State.slot
    split
    · rename_i hb
      have : slotIndex a ≠ slotIndex b := fun e => h (slotIndex_inj hb ha e.symm)
      simp [this]
    · rfl
  · rfl

/-- The second write of a slot is the one that stays. -/
theorem setSlot_setSlot (s : State) (a : Byte) (c d : ChipConfig) : (s.setSlot a c).setSlot a d = s.setSlot a d := by
  unfold State.setSlot
  split <;> simp [*]

/-! ## Servo entries -/

@[simp] theorem setServo_frequency (c : ChipConfig) (k : Fin 16) (sv : ServoConfig) :
    (c.setServo k sv).frequency = c.frequency := rfl

@[simp] theorem setServo_phase (c : ChipConfig) (k : Fin 16) (sv : ServoConfig) : (c.setServo k sv).phase = c.phase := rfl

@[simp] theorem setServo_servo_same (c : ChipConfig) (k : Fin 16) (sv : ServoConfig) : (c.setServo k sv).servo k = sv := by
  simp [ChipConfig.servo, ChipConfig.setServo]

theorem setServo_servo_other (c : ChipConfig) {k j : Fin 16} (sv : ServoConfig) (h : j ≠ k) :
    (c.setServo k sv).servo j = c.servo j := by
  have : k.val ≠ j.val := fun e => h (Fin.ext e.symm)
  simp [ChipConfig.servo, ChipConfig.setServo, this]

@[simp] theorem defaultConfig_servo (f : Nat) (k : Fin 16) : (defaultConfig f).servo k = defaultServo k := by
  simp [ChipConfig.servo, defaultConfig]

end Sys2Proof.Machine
end

