-- ==== Sys2Proof/Laws/Sequencer.lean ====
section
/-! SUPPORT. The law of the init sequence and of lookup-or-create (spec/44_bringup.md R122, R123; spec/41_registry.md R81,
R85): each says once everything the procedure can do. -/

namespace Sys2Proof.Machine

theorem performOp_setSeq (a : Byte) (op : BusOp) (s : State) (n : Nat) :
    performOp a op (s.setSeq n) = match performOp a op s with
      | .done _ s' => .done () (s'.setSeq n)
      | .raised k s' => .raised k (s'.setSeq n) := by
  cases op with
  | delay m => rfl
  | write r v =>
    have h1 : (s.setSeq n).nextAnswer = s.nextAnswer := nextAnswer_congr rfl rfl
    have h2 : (s.setSeq n).dropAnswer = s.dropAnswer.setSeq n := by
      cases h : s.answers <;> simp [State.dropAnswer, h, State.setSeq]
    simp only [performOp, memWrite, h1, h2]
    cases s.nextAnswer <;> rfl

/-- The sequencer performs the events as any list of events is performed, and leaves `seq` at 0. -/
theorem runSequence_eq (a : Byte) (n : Nat) (ops : List BusOp) (s : State) :
    runSequence a n ops s = match performAll a ops s with
      | .done _ s' => .done () (s'.setSeq 0)
      | .raised k s' => .raised k (s'.setSeq 0) := by
  induction ops generalizing n s with
  | nil => rfl
  | cons op rest ih =>
    simp only [runSequence, performAll, performOp_setSeq]
    cases h : performOp a op s with
    | raised k s' => rfl
    | done u s' =>
      have h' : performAll a rest (s'.setSeq n) = match performAll a rest s' with
          | .done _ t => .done () (t.setSeq n)
          | .raised k t => .raised k (t.setSeq n) := by
        clear ih h
        induction rest generalizing s' with
        | nil => rfl
        | cons op rest ih2 =>
          simp only [performAll, performOp_setSeq]
          cases performOp a op s' with
          | raised k t => rfl
          | done u t => simp only [andThen_done, ih2]
      simp only [ih, andThen_done, h']
      cases performAll a rest s' <;> rfl

/-- The whole sequence, every write answered with success (R122). -/
theorem initSequence_of_allSucceed (a : Byte) (f : Nat) (s : State) (h : s.allSucceed 8) :
    initSequence a f s =
      .done () { s.useAnswers 8 with seq := 0, trace := s.trace ++ initEvents s.params a f } := by
  have h' := performAll_of_allSucceed a (initScript s.params f) s h
  simp only [initSequence, runSequence_eq, h', State.setSeq]
  rfl

/-- The sequence aborted by its write `i` (counted from 0), R123. -/
theorem initSequence_of_failsAt (a : Byte) (f : Nat) (i : Nat) (s : State) (hi : i < 8) (h : s.failsAt i) :
    initSequence a f s = .raised .busError
      { s.useAnswers (i + 1) with seq := 0, trace := s.trace ++ cutTrace i (initEvents s.params a f) } := by
  have h' := performAll_of_failsAt a (initScript s.params f) i s hi h
  simp only [initSequence, runSequence_eq, h', State.setSeq]
  rfl

theorem lookupOrCreate_of_invalid {a : Byte} (f : Int) (s : State) (h : validAddress a = false) :
    lookupOrCreate a f s = .raised .invalidAddress s := by
  simp [lookupOrCreate, h]

theorem lookupOrCreate_of_hit {a : Byte} {c : ChipConfig} (f : Int) (s : State) (h : s.slot a = some c) :
    lookupOrCreate a f s = .done { created := false, config := c } s := by
  simp [lookupOrCreate, validAddress_of_slot h, h]

/-- Creation succeeds (R81). -/
theorem lookupOrCreate_of_miss {a : Byte} (f : Int) (s : State) (hv : validAddress a = true) (h : s.slot a = none)
    (hs : s.allSucceed 8) :
    lookupOrCreate a f s = .done { created := true, config := defaultConfig (clampFrequency f) }
      (s.created a (clampFrequency f)) := by
  simp only [lookupOrCreate, hv, h, if_true, initSequence_of_allSucceed _ _ _ hs, andThen_done, State.created, State.setSlot]

/-- Creation fails and stores nothing (R85). -/
theorem lookupOrCreate_of_failure {a : Byte} (f : Int) (i : Nat) (s : State) (hv : validAddress a = true)
    (h : s.slot a = none) (hi : i < 8) (hs : s.failsAt i) :
    lookupOrCreate a f s = .raised .busError { s.useAnswers (i + 1) with
      seq := 0, trace := s.trace ++ cutTrace i (initEvents s.params a (clampFrequency f)) } := by
  simp only [lookupOrCreate, hv, h, if_true, initSequence_of_failsAt _ _ _ _ hi hs, andThen_raised]

/-- `writeChannel`, every write answered with success (R70). -/
theorem writeChannel_of_allSucceed (a : Byte) (p on off : Int) (s : State) (h : s.allSucceed 4) :
    writeChannel a p on off s = .done () { s.useAnswers 4 with
      trace := s.trace ++ channelEvents a (slotBase (clampPin p)) (clampCount on) (clampCount off) } :=
  performAll_of_allSucceed a (channelScript p on off) s h

/-- `writeChannel` cut short by its write `i` (counted from 0), R74. -/
theorem writeChannel_of_failsAt (a : Byte) (p on off : Int) (i : Nat) (s : State) (hi : i < 4) (h : s.failsAt i) :
    writeChannel a p on off s = .raised .busError { s.useAnswers (i + 1) with
      trace := s.trace ++ cutTrace i (channelEvents a (slotBase (clampPin p)) (clampCount on) (clampCount off)) } :=
  performAll_of_failsAt a (channelScript p on off) i s hi h

/-- Writing a slot commutes with taking answers. -/
theorem useAnswers_setSlot (s : State) (n : Nat) (a : Byte) (c : ChipConfig) :
    (s.setSlot a c).useAnswers n = (s.useAnswers n).setSlot a c := by
  unfold State.setSlot
  split
  · rw [useAnswers_update s n _ s.seq s.trace s.responses]
    simp
  · rfl

/-- Everything lookup-or-create can do: refuse the address, hit, create, or fail while creating (R81, R83, R85). -/
theorem lookupOrCreate_cases (a : Byte) (f : Int) (s : State) :
    (validAddress a = false ∧ lookupOrCreate a f s = .raised .invalidAddress s) ∨
    (∃ c, s.slot a = some c ∧ lookupOrCreate a f s = .done { created := false, config := c } s) ∨
    (validAddress a = true ∧ s.slot a = none ∧ s.allSucceed 8 ∧
      lookupOrCreate a f s = .done { created := true, config := defaultConfig (clampFrequency f) }
        (s.created a (clampFrequency f))) ∨
    (∃ i, validAddress a = true ∧ s.slot a = none ∧ i < 8 ∧ s.failsAt i ∧
      lookupOrCreate a f s = .raised .busError { s.useAnswers (i + 1) with
        seq := 0, trace := s.trace ++ cutTrace i (initEvents s.params a (clampFrequency f)) }) := by
  cases hv : validAddress a with
  | false => exact .inl ⟨rfl, lookupOrCreate_of_invalid f s hv⟩
  | true =>
    cases h : s.slot a with
    | some c => exact .inr (.inl ⟨c, rfl, lookupOrCreate_of_hit f s h⟩)
    | none =>
      rcases allSucceed_or_failsAt 8 s with hs | ⟨i, hi, hs⟩
      · exact .inr (.inr (.inl ⟨rfl, rfl, hs, lookupOrCreate_of_miss f s hv h hs⟩))
      · exact .inr (.inr (.inr ⟨i, rfl, rfl, hi, hs, lookupOrCreate_of_failure f i s hv h hi hs⟩))

/-- Everything `writeChannel` can do (R70, R74). -/
theorem writeChannel_cases (a : Byte) (p on off : Int) (s : State) :
    (s.allSucceed 4 ∧ writeChannel a p on off s = .done () { s.useAnswers 4 with
      trace := s.trace ++ channelEvents a (slotBase (clampPin p)) (clampCount on) (clampCount off) }) ∨
    (∃ i, i < 4 ∧ s.failsAt i ∧ writeChannel a p on off s = .raised .busError { s.useAnswers (i + 1) with
      trace := s.trace ++
        cutTrace i (channelEvents a (slotBase (clampPin p)) (clampCount on) (clampCount off)) }) := by
  rcases allSucceed_or_failsAt 4 s with hs | ⟨i, hi, hs⟩
  · exact .inl ⟨hs, writeChannel_of_allSucceed a p on off s hs⟩
  · exact .inr ⟨i, hi, hs, writeChannel_of_failsAt a p on off i s hi hs⟩

/-- The sequence on a registered slot, every write answered with success: phase Running (R122, R126). -/
theorem bringUp_of_allSucceed (a : Byte) (c : ChipConfig) (s : State) (hs : s.allSucceed 8) :
    bringUp a c s = .done .ok { (s.useAnswers 8).setSlot a { c with phase := .running } with
      seq := 0, trace := s.trace ++ initEvents s.params a c.frequency } := by
  have h := initSequence_of_allSucceed a c.frequency (s.setSlot a { c with phase := .initializing })
    ((setSlot_allSucceed s a _ 8).2 hs)
  simp only [bringUp, h, andThen_done, useAnswers_setSlot, setSlot_trace, setSlot_params]
  congr 1
  simp only [State.setSlot]
  split <;> simp

/-- The sequence on a registered slot aborted at its write `i`: phase Initializing (R123, R126). -/
theorem bringUp_of_failsAt (a : Byte) (c : ChipConfig) (i : Nat) (s : State) (hi : i < 8) (hs : s.failsAt i) :
    bringUp a c s = .raised .busError { (s.useAnswers (i + 1)).setSlot a { c with phase := .initializing } with
      seq := 0, trace := s.trace ++ cutTrace i (initEvents s.params a c.frequency) } := by
  have h := initSequence_of_failsAt a c.frequency i (s.setSlot a { c with phase := .initializing }) hi
    ((setSlot_failsAt s a _ i).2 hs)
  simp only [bringUp, h, andThen_raised, useAnswers_setSlot, setSlot_trace, setSlot_params]

/-- Everything the sequence on a registered slot can do. -/
theorem bringUp_cases (a : Byte) (c : ChipConfig) (s : State) :
    (s.allSucceed 8 ∧ bringUp a c s = .done .ok { (s.useAnswers 8).setSlot a { c with phase := .running } with
      seq := 0, trace := s.trace ++ initEvents s.params a c.frequency }) ∨
    (∃ i, i < 8 ∧ s.failsAt i ∧ bringUp a c s = .raised .busError
      { (s.useAnswers (i + 1)).setSlot a { c with phase := .initializing } with
        seq := 0, trace := s.trace ++ cutTrace i (initEvents s.params a c.frequency) }) := by
  rcases allSucceed_or_failsAt 8 s with hs | ⟨i, hi, hs⟩
  · exact .inl ⟨hs, bringUp_of_allSucceed a c s hs⟩
  · exact .inr ⟨i, hi, hs, bringUp_of_failsAt a c i s hi hs⟩

/-- The end of a motion command, every write answered with success (R105, R106). -/
theorem moveServo_of_allSucceed (a : Byte) (c : ChipConfig) (k : Fin 16) (pos : Position) (pwm : Int) (s : State)
    (hs : s.allSucceed 4) :
    moveServo a c k pos pwm s = .done .ok
      { (s.useAnswers 4).setSlot a (c.setServo k { c.servo k with position := pos }) with
        trace := s.trace ++
          channelEvents a (slotBase (clampPin (c.servo k).pinNumber.toNat)) (clampCount 0) (clampCount pwm) } := by
  have h := writeChannel_of_allSucceed a (c.servo k).pinNumber.toNat 0 pwm
    (s.setSlot a (c.setServo k { c.servo k with position := pos })) ((setSlot_allSucceed s a _ 4).2 hs)
  simp only [moveServo, h, andThen_done, useAnswers_setSlot, setSlot_trace]

/-- The end of a motion command cut short by its write `i`: the position is stored all the same (R146). -/
theorem moveServo_of_failsAt (a : Byte) (c : ChipConfig) (k : Fin 16) (pos : Position) (pwm : Int) (i : Nat) (s : State)
    (hi : i < 4) (hs : s.failsAt i) :
    moveServo a c k pos pwm s = .raised .busError
      { (s.useAnswers (i + 1)).setSlot a (c.setServo k { c.servo k with position := pos }) with
        trace := s.trace ++ cutTrace i
          (channelEvents a (slotBase (clampPin (c.servo k).pinNumber.toNat)) (clampCount 0) (clampCount pwm)) } := by
  have h := writeChannel_of_failsAt a (c.servo k).pinNumber.toNat 0 pwm i
    (s.setSlot a (c.setServo k { c.servo k with position := pos })) hi ((setSlot_failsAt s a _ i).2 hs)
  simp only [moveServo, h, andThen_raised, useAnswers_setSlot, setSlot_trace]

/-- Everything the end of a motion command can do. -/
theorem moveServo_cases (a : Byte) (c : ChipConfig) (k : Fin 16) (pos : Position) (pwm : Int) (s : State) :
    (s.allSucceed 4 ∧ moveServo a c k pos pwm s = .done .ok
      { (s.useAnswers 4).setSlot a (c.setServo k { c.servo k with position := pos }) with
        trace := s.trace ++
          channelEvents a (slotBase (clampPin (c.servo k).pinNumber.toNat)) (clampCount 0) (clampCount pwm) }) ∨
    (∃ i, i < 4 ∧ s.failsAt i ∧ moveServo a c k pos pwm s = .raised .busError
      { (s.useAnswers (i + 1)).setSlot a (c.setServo k { c.servo k with position := pos }) with
        trace := s.trace ++ cutTrace i
          (channelEvents a (slotBase (clampPin (c.servo k).pinNumber.toNat)) (clampCount 0) (clampCount pwm)) }) := by
  rcases allSucceed_or_failsAt 4 s with hs | ⟨i, hi, hs⟩
  · exact .inl ⟨hs, moveServo_of_allSucceed a c k pos pwm s hs⟩
  · exact .inr ⟨i, hi, hs, moveServo_of_failsAt a c k pos pwm i s hi hs⟩

end Sys2Proof.Machine
end

