-- ==== Sys2Proof/Certificates/Slice0/Obligations.lean ====
section
/-! DEFINITION. The statements for the provers, from the numbered rules of spec/, each over every state and operand it
does not name a condition on. -/

open Sys2Proof Sys2Proof.Machine

/-! ## Command words (spec/30_encoding.md)

They hold for every width `OPERAND_W` of the operand fields (R6, D5; log entry 22). -/

/-- R50, R51, R53, R57, R61: the decoder reads back every operand of every command that has a word. -/
def Obligations.DecodeOfEncodeIsTheCommand : Prop :=
  ∀ (operandW : Nat) (i : Instr), i.wellFormed operandW = true → decode operandW (encode operandW i) = .ok i

/-- R51, R53: what the decoder reads has its signed and unsigned operands in the range of their fields. -/
def Obligations.DecodedCommandIsWellFormed : Prop :=
  ∀ (operandW : Nat) (w : CmdWord operandW) (i : Instr), decode operandW w = .ok i → i.wellFormed operandW = true

/-- R50: a word is its eight fields, most significant first. -/
def Obligations.EveryWordIsItsEightFields : Prop :=
  ∀ (operandW : Nat) (w : CmdWord operandW),
    packFields (fieldOp w) (fieldRsv w) (fieldM w) (fieldAddr w) (fieldA w) (fieldB w) (fieldC w) (fieldD w) = w

/-- R55: `rsv`, every operand field R53 does not list for the operation, `m` outside `setServoLimits`, and `d` of
`setServoLimits` with `m = 0` may hold anything; of an illegal word every bit but `op` may. -/
def Obligations.IgnoredBitsDoNotChangeTheCommand : Prop :=
  ∀ operandW : Nat,
  (∀ (r r' : BitVec 3) (m m' : BitVec 1) (addr : Byte) (a b c d a' b' c' d' : Operand operandW),
    decode operandW (packFields 0 r m addr a b c d) = decode operandW (packFields 0 r' m' addr a b' c' d') ∧
    decode operandW (packFields 1 r m addr a b c d) = decode operandW (packFields 1 r' m' addr a' b' c' d') ∧
    decode operandW (packFields 2 r m addr a b c d) = decode operandW (packFields 2 r' m' addr a b c d') ∧
    decode operandW (packFields 3 r m addr a b c d) = decode operandW (packFields 3 r' m' addr a b c' d') ∧
    decode operandW (packFields 4 r m addr a b c d) = decode operandW (packFields 4 r' m' addr a b c' d') ∧
    decode operandW (packFields 5 r 0 addr a b c d) = decode operandW (packFields 5 r' 0 addr a b c d') ∧
    decode operandW (packFields 5 r 1 addr a b c d) = decode operandW (packFields 5 r' 1 addr a b c d) ∧
    decode operandW (packFields 6 r m addr a b c d) = decode operandW (packFields 6 r' m' addr a' b' c' d')) ∧
  ∀ w w' : CmdWord operandW, fieldOp w = fieldOp w' → 7 ≤ (fieldOp w).toNat → decode operandW w = decode operandW w'

/-- R52, R53: 80-bit words written out from spec/95_test_vectors.md sections 2.2 to 2.9, one per operation and one
illegal. -/
def Obligations.WordsOfTheSpecDecode : Prop :=
  decode 16 0x0040003C000000000000 = .ok (.init 0x40 60) ∧
  decode 16 0x1040FFFFFFFFFFFFFFFF = .ok (.reset 0x40) ∧
  decode 16 0x20400063FFF913880000 = .ok (.setPinPulseRange 99 (-7) 5000 0x40) ∧
  decode 16 0x3040FFFC005A00000000 = .ok (.setStandardServoAngle (-4) 90 0x40) ∧
  decode 16 0x40400002FE0C00000000 = .ok (.setContinuousServoSpeed 2 (-500) 0x40) ∧
  decode 16 0x51400001000200060003 = .ok (.setServoLimits 1 2 6 (some 3) 0x40) ∧
  decode 16 0x50400001000200060009 = .ok (.setServoLimits 1 2 6 none 0x40) ∧
  decode 16 0x6E40DEADBEEFCAFEF00D = .ok (.getChipConfig 0x40) ∧
  decode 16 0x70400000000000000000 = .error (.illegalOp 7)

/-- R57: the assembler call of a command, its name with its operands as numbers in DOC0's order, assembles to that
command. -/
def Obligations.AssemblerCallOfACommandIsTheCommand : Prop :=
  ∀ (operandW : Nat) (i : Instr), i.wellFormed operandW = true → assembleCall operandW i.mnemonic i.operands = some i

/-- R57: the text of a command's line, with its numbers in decimal or in hexadecimal, assembles to the command's word. -/
def Obligations.AssemblerLineOfACommandIsItsWord : Prop :=
  ∀ (operandW : Nat) (hex : Bool) (i : Instr), i.wellFormed operandW = true →
    assembleLine operandW (i.line hex) = some (encode operandW i)

/-! ## A step (spec/00_scope.md R9, spec/60_exceptions.md) -/

/-- R9, R50: a step takes the next word of the command port and runs the command it decodes to, in the state without that
word; where the port is as wide as the word, the word of a command is taken whole. -/
def Obligations.StepRunsTheDecodedCommand : Prop :=
  (∀ (s : State) (w : Nat) (rest : List Nat) (i : Instr), s.commands = w :: rest →
    decode s.params.operandW (portWord s.params w) = .ok i → step s = exec i { s with commands := rest }) ∧
  ∀ (s : State) (rest : List Nat) (i : Instr), s.params.valid = true → i.wellFormed s.params.operandW = true →
    s.commands = (encode s.params.operandW i).toNat :: rest → step s = exec i { s with commands := rest }

/-- R54, R145: a word with `op` in 0x7..0xF is answered `Err(IllegalCommand)`; nothing else changes (`seq` returns to 0,
R146, where it stands at every command boundary). -/
def Obligations.IllegalWordAnswersIllegalCommand : Prop :=
  ∀ (s : State) (w : Nat) (rest : List Nat), s.commands = w :: rest → 7 ≤ (fieldOp (portWord s.params w)).toNat →
    step s = .next { s with commands := rest, seq := 0, responses := s.responses ++ [.err .illegalCommand] }

/-- R9, R146, R149: every command, in every state, runs to its end: no fault and no refusal. -/
def Obligations.EveryCommandEndsInANextState : Prop :=
  ∀ (i : Instr) (s : State), ∃ t, exec i s = .next t

/-- R58: every command ends with exactly one response. -/
def Obligations.EveryCommandAnswersExactlyOnce : Prop :=
  ∀ (i : Instr) (s t : State), exec i s = .next t → ∃ r, t.responses = s.responses ++ [r]

/-- R142, R144: no step answers `ChannelOutOfRange` or `UncalibratedServo`. -/
def Obligations.ReservedErrorsAreNeverAnswered : Prop :=
  ∀ s t : State, step s = .next t →
    (∀ r ∈ s.responses, r ≠ .err .channelOutOfRange ∧ r ≠ .err .uncalibratedServo) →
    ∀ r ∈ t.responses, r ≠ .err .channelOutOfRange ∧ r ≠ .err .uncalibratedServo

/-- R83, R141, R147: a command whose address is outside 0x40..0x7E answers `Err(InvalidAddress)` before any state change and
any bus event, whatever the other operands and the transport; a command with an address inside never answers it. -/
def Obligations.InvalidAddressIsCheckedFirst : Prop :=
  (∀ (i : Instr) (s : State), (i.address.toNat < 0x40 ∨ 0x7E < i.address.toNat) →
    exec i s = .next { s with seq := 0, responses := s.responses ++ [.err .invalidAddress] }) ∧
  ∀ (i : Instr) (s t : State), 0x40 ≤ i.address.toNat → i.address.toNat ≤ 0x7E → exec i s = .next t →
    t.responses ≠ s.responses ++ [.err .invalidAddress]

/-! ## Reset (spec/10_state.md R25) -/

/-- R25, R160: after reset every slot is Unregistered, `seq` is 0, the bus trace is empty and no response is given. -/
def Obligations.ResetLeavesEverySlotUnregistered : Prop :=
  (∀ a : Byte, State.reset.slot a = none ∧ State.reset.phase a = .unregistered) ∧
    State.reset.seq = 0 ∧ State.reset.trace = [] ∧ State.reset.responses = []

/-- The invariants hold at reset (the parameter defaults of R6 are valid; log entries 2, 3, 4, 22). -/
def Obligations.ResetMeetsTheInvariants : Prop :=
  State.reset.Inv ∧ TraceAllowed State.reset.trace ∧
    PrescaleGuarded State.reset.params.mode1Sleep State.reset.trace

/-! ## Invariants of every step (spec/10_state.md R18, spec/20_memory.md R40, spec/44_bringup.md R127) -/

/-- R13, R15, R16, R17, R18(d), R20: frequencies stay in [40, 1000], pins stay the constant of their place, offsets stay in
their field, positions stay in the range of their kind, `seq` is 0 at every command boundary. -/
def Obligations.StepKeepsTheStateInvariant : Prop :=
  ∀ s t : State, s.Inv → step s = .next t → t.Inv

/-- R31, R40, R71: a step writes only to valid bus addresses, only to MODE1, PRESCALE, the broadcast registers (with 0) and
the 64 channel registers (bits [7:4] of an `_H` register 0), and delays at least 500 µs. -/
def Obligations.StepWritesOnlyAllowedRegisters : Prop :=
  ∀ s t : State, s.params.valid = true → TraceAllowed s.trace → step s = .next t → TraceAllowed t.trace

/-- R127: every PRESCALE write comes right after a successful sleep write to the same chip. -/
def Obligations.PrescaleIsWrittenOnlyAfterSleep : Prop :=
  ∀ s t : State, PrescaleGuarded s.params.mode1Sleep s.trace → step s = .next t →
    PrescaleGuarded t.params.mode1Sleep t.trace

/-! ## The registry (spec/41_registry.md) -/

/-- R82: the content of a newly created slot. -/
def Obligations.DefaultConfigHasTheDefaults : Prop :=
  ∀ (f : Nat) (k : Fin 16),
    (defaultConfig f).frequency = f ∧ (defaultConfig f).phase = .running ∧
    (defaultConfig f).servo k =
      { pinNumber := BitVec.ofNat 4 k.val, minOffset := 5, midOffset := 15, maxOffset := 25, position := .unset }

/-- R81, R122, R161: the five commands other than `init` and `reset`, on an unregistered valid address with the creating
sequence answered with success, are creation at 50 Hz and then the same command on the registered slot. -/
def Obligations.MissCreatesTheSlotThenRunsTheCommand : Prop :=
  ∀ (i : Instr) (s : State), (∀ a f, i ≠ .init a f) → (∀ a, i ≠ .reset a) →
    validAddress i.address = true → s.slot i.address = none → s.allSucceed 8 →
    exec i s = exec i { (s.useAnswers 8).setSlot i.address (defaultConfig 50) with
      seq := 0, trace := s.trace ++ initEvents s.params i.address 50 }

/-- R85: a creation whose write `k` (from 0) fails stores nothing, ends the command there, and leaves the slot unregistered,
for each of the seven commands. -/
def Obligations.FailedCreationStoresNothing : Prop :=
  ∀ (i : Instr) (s : State) (k : Nat), validAddress i.address = true → s.slot i.address = none → k < 8 → s.failsAt k →
    exec i s = .next (s.failed (k + 1) (cutTrace k (initEvents s.params i.address i.creationFrequency)) .busError) ∧
    (s.failed (k + 1) (cutTrace k (initEvents s.params i.address i.creationFrequency)) .busError).cfg = s.cfg

/-- R84: on a registered slot `getChipConfig` answers a copy of it and changes nothing, no bus event. -/
def Obligations.GetChipConfigAnswersTheSlot : Prop :=
  ∀ (a : Byte) (c : ChipConfig) (s : State), s.slot a = some c →
    exec (.getChipConfig a) s = .next (s.respond (.okConfig (configView a c)))

/-- R12, R14, R17, R58: what the copy shows: the address, frequency and phase, and per entry the id k + 1, the stored fields
and the position's legacy number. -/
def Obligations.ConfigCopyShowsTheSlot : Prop :=
  ∀ (s : State) (a : Byte) (c : ChipConfig) (k : Fin 16), s.slot a = some c →
    (configView a c).address = a ∧ (configView a c).frequency = c.frequency ∧ (configView a c).phase = s.phase a ∧
    (configView a c).servos[k] =
      { id := k.val + 1, pinNumber := (c.servo k).pinNumber, minOffset := (c.servo k).minOffset,
        midOffset := (c.servo k).midOffset, maxOffset := (c.servo k).maxOffset, position := (c.servo k).position,
        legacyPosition := match (c.servo k).position with
          | .unset => -1
          | .standard angle => angle
          | .continuous speed => speed }

/-- R86(a): a second `getChipConfig` changes nothing but the responses and answers the same configuration. -/
def Obligations.GetChipConfigTwiceAnswersTheSame : Prop :=
  ∀ (a : Byte) (s t : State) (view : ConfigView), exec (.getChipConfig a) s = .next t →
    t.responses = s.responses ++ [.okConfig view] → exec (.getChipConfig a) t = .next (t.respond (.okConfig view))

/-! ## Bring-up (spec/44_bringup.md) -/

/-- R120: the prescaler is the nearest integer, non-increasing, from 152 to 5, and is the byte written. -/
def Obligations.PrescalerIsTheNearestInteger : Prop :=
  (∀ f : Nat, 40 ≤ f → f ≤ 1000 →
    (2 * (25000000 - (prescale f + 1) * (4096 * f)) < 4096 * f ∧ -(4096 * f) < 2 * (25000000 - (prescale f + 1) * (4096 * f))) ∧
    5 ≤ prescale f ∧ prescale f ≤ 152 ∧ ((prescaleByte f).toNat : Int) = prescale f) ∧
  (∀ f g : Nat, 40 ≤ f → f ≤ g → g ≤ 1000 → prescale g ≤ prescale f) ∧
  prescale 40 = 152 ∧ prescale 50 = 121 ∧ prescale 60 = 101 ∧ prescale 100 = 60 ∧ prescale 200 = 30 ∧
  prescale 333 = 17 ∧ prescale 500 = 11 ∧ prescale 1000 = 5

/-- R124 on an unregistered address: the slot is created at the operand's frequency by one sequence, which is the init. -/
def Obligations.InitCreatesAtItsFrequency : Prop :=
  ∀ (a : Byte) (f : Int) (s : State), validAddress a = true → s.slot a = none → s.allSucceed 8 →
    exec (.init a f) s = .next
      ({ (s.useAnswers 8).setSlot a (defaultConfig (clampFrequency f)) with
          seq := 0, trace := s.trace ++ initEvents s.params a (clampFrequency f) }.respond .ok)

/-- R125 on an unregistered address: the slot is created at 50 Hz by one sequence. -/
def Obligations.ResetCreatesAtFiftyHertz : Prop :=
  ∀ (a : Byte) (s : State), validAddress a = true → s.slot a = none → s.allSucceed 8 →
    exec (.reset a) s = .next
      ({ (s.useAnswers 8).setSlot a (defaultConfig 50) with
          seq := 0, trace := s.trace ++ initEvents s.params a 50 }.respond .ok)

/-- R124 on a registered slot: the frequency is stored, the nine events run, the phase is Running; the servo entries stay. -/
def Obligations.InitRunsTheSequenceAndStoresTheFrequency : Prop :=
  ∀ (a : Byte) (f : Int) (c : ChipConfig) (s : State), s.slot a = some c → s.allSucceed 8 →
    exec (.init a f) s = .next
      ({ (s.useAnswers 8).setSlot a { frequency := clampFrequency f, phase := .running, servos := c.servos } with
          seq := 0, trace := s.trace ++ initEvents s.params a (clampFrequency f) }.respond .ok)

/-- R123, R124, R126, R146: an `init` aborted at its write `k` (from 0) leaves the new frequency and phase Initializing. -/
def Obligations.AbortedInitKeepsTheNewFrequency : Prop :=
  ∀ (a : Byte) (f : Int) (c : ChipConfig) (s : State) (k : Nat), s.slot a = some c → k < 8 → s.failsAt k →
    exec (.init a f) s = .next
      ((s.setSlot a { frequency := clampFrequency f, phase := .initializing, servos := c.servos }).failed (k + 1)
        (cutTrace k (initEvents s.params a (clampFrequency f))) .busError)

/-- R125 on a registered slot: the sequence at the stored frequency; only the phase is written. -/
def Obligations.ResetRunsTheSequenceAtTheStoredFrequency : Prop :=
  ∀ (a : Byte) (c : ChipConfig) (s : State), s.slot a = some c → s.allSucceed 8 →
    exec (.reset a) s = .next
      ({ (s.useAnswers 8).setSlot a { c with phase := .running } with
          seq := 0, trace := s.trace ++ initEvents s.params a c.frequency }.respond .ok)

/-- R123, R125, R126, R146: a `reset` aborted at its write `k` (from 0) leaves phase Initializing and the rest of the slot. -/
def Obligations.AbortedResetLeavesInitializing : Prop :=
  ∀ (a : Byte) (c : ChipConfig) (s : State) (k : Nat), s.slot a = some c → k < 8 → s.failsAt k →
    exec (.reset a) s = .next
      ((s.setSlot a { c with phase := .initializing }).failed (k + 1)
        (cutTrace k (initEvents s.params a c.frequency)) .busError)

/-- R126: the phase of the command's own address after the command, for each of the three rows of the table. -/
def Obligations.PhaseFollowsTheBringUpTable : Prop :=
  ∀ (i : Instr) (s t : State), exec i s = .next t → validAddress i.address = true →
    (s.phase i.address = .unregistered → t.phase i.address = if s.allSucceed 8 then .running else .unregistered) ∧
    (s.phase i.address ≠ .unregistered → ((∃ a f, i = .init a f) ∨ ∃ a, i = .reset a) →
      t.phase i.address = if s.allSucceed 8 then .running else .initializing) ∧
    (s.phase i.address ≠ .unregistered → (∀ a f, i ≠ .init a f) → (∀ a, i ≠ .reset a) →
      t.phase i.address = s.phase i.address)

/-! ## The encoder (spec/20_memory.md, spec/40_register_protocol.md) -/

/-- R33: the four registers of a channel slot; the sum never wraps. -/
def Obligations.ChannelSlotRegisters : Prop :=
  ∀ p : Nat, p ≤ 15 → (slotBase p).toNat = 0x06 + 4 * p ∧ (slotBase p + 1).toNat = 0x06 + 4 * p + 1 ∧
    (slotBase p + 2).toNat = 0x06 + 4 * p + 2 ∧ (slotBase p + 3).toNat = 0x06 + 4 * p + 3

/-- R71, R72: the two bytes of a count, and the count a number is clamped to. -/
def Obligations.CountSplitsIntoLowAndHighByte : Prop :=
  ∀ n : Count, 256 * (highByte n).toNat + (lowByte n).toNat = n.toNat ∧ (highByte n).toNat ≤ 15 ∧
    (lowByte n).toNat = n.toNat % 256 ∧ clampCount n.toNat = n

/-- R73, R70: `setPinPulseRange` on a registered slot issues the four writes of the clamped pin's slot and changes no slot. -/
def Obligations.SetPinPulseRangeWritesTheChannelSlot : Prop :=
  ∀ (pin on off : Int) (a : Byte) (c : ChipConfig) (s : State), s.slot a = some c → s.allSucceed 4 →
    exec (.setPinPulseRange pin on off a) s = .next
      (s.ended 4 (channelEvents a (slotBase (clampPin pin)) (clampCount on) (clampCount off)) .ok)

/-- R74: when write `k` (from 0) of the four fails, the later ones are not issued and nothing is rolled back. -/
def Obligations.FailedChannelWriteIsTorn : Prop :=
  ∀ (pin on off : Int) (a : Byte) (c : ChipConfig) (s : State) (k : Nat), s.slot a = some c → k < 4 → s.failsAt k →
    exec (.setPinPulseRange pin on off a) s = .next
      (s.failed (k + 1)
        (cutTrace k (channelEvents a (slotBase (clampPin pin)) (clampCount on) (clampCount off))) .busError) ∧
    (cutTrace k (channelEvents a (slotBase (clampPin pin)) (clampCount on) (clampCount off))).length = k + 1

/-- R7, R51, R72, R128: the clamps of the operands: the value itself inside the range, else the nearest end. -/
def Obligations.ClampsGiveTheNearestValueInRange : Prop :=
  ∀ x : Int,
    (clampFrequency x : Int) = max 40 (min x 1000) ∧ ((channelIndex x).val : Int) = max 1 (min x 16) - 1 ∧
    (clampPin x : Int) = max 0 (min x 15) ∧ clampAngle x = max 0 (min x 180) ∧ clampSpeed x = max (-100) (min x 100) ∧
    ((clampCount x).toNat : Int) = max 0 (min x 4095)

/-- R51, R72, R128: a frequency, pin, count, channel, angle or speed outside its range acts as the nearest value in it. -/
def Obligations.OperandsActAsTheirClamps : Prop :=
  ∀ (x y z : Int) (mn mx : Nat) (md : Option Nat) (a : Byte) (s : State),
    exec (.init a x) s = exec (.init a (max 40 (min x 1000))) s ∧
    exec (.setPinPulseRange x y z a) s =
      exec (.setPinPulseRange (max 0 (min x 15)) (max 0 (min y 4095)) (max 0 (min z 4095)) a) s ∧
    exec (.setStandardServoAngle x y a) s = exec (.setStandardServoAngle (max 1 (min x 16)) (max 0 (min y 180)) a) s ∧
    exec (.setContinuousServoSpeed x y a) s =
      exec (.setContinuousServoSpeed (max 1 (min x 16)) (max (-100) (min y 100)) a) s ∧
    exec (.setServoLimits x mn mx md a) s = exec (.setServoLimits (max 1 (min x 16)) mn mx md a) s

/-! ## Calibration (spec/42_calibration.md) -/

/-- R92, R90, R93: `setServoLimits` on a registered slot stores the three bounds of one channel as given, the midpoint when
the middle one is omitted; nothing else changes, no bus event. -/
def Obligations.SetServoLimitsStoresTheBounds : Prop :=
  ∀ (ch : Int) (mn mx : Nat) (md : Option Nat) (a : Byte) (c : ChipConfig) (s : State), s.slot a = some c →
    exec (.setServoLimits ch mn mx md a) s = .next
      ((s.setSlot a (c.setServo (channelIndex ch)
        { pinNumber := (c.servo (channelIndex ch)).pinNumber
          minOffset := mn
          midOffset := md.getD (((mx : Int) - mn) / 2 + mn).toNat
          maxOffset := mx
          position := (c.servo (channelIndex ch)).position })).respond .ok)

/-- R91: the midpoint rounds down, lies between the bounds whichever is larger, fits every field both bounds fit, and is
what an omitted `midOffset` becomes. -/
def Obligations.MidpointLiesBetweenTheBounds : Prop :=
  ∀ mn mx : Nat, let m := midpointOffset mn mx
    (2 * m ≤ mn + mx ∧ mn + mx ≤ 2 * m + 1) ∧
    ((mn : Int) ≤ mx → mn ≤ m ∧ m ≤ mx) ∧
    ((mx : Int) < mn → mx ≤ m ∧ m ≤ mn) ∧
    (∀ operandW : Nat, mn < 2 ^ operandW → mx < 2 ^ operandW → m < 2 ^ operandW) ∧
    ∀ sv : ServoConfig, ((setOffsets sv mn mx none).midOffset : Int) = m

/-! ## Pulse math (spec/43_pulse_math.md) -/

/-- R100, R102, R103, R105: `setStandardServoAngle` on a registered slot with an ordered calibration stores the clamped angle
and writes `start + floor(angle * spread / 180)`, clamped to 12 bits, with on-count 0, to the channel's pin. -/
def Obligations.StandardAngleWritesTheMappedCount : Prop :=
  ∀ (ch x : Int) (a : Byte) (c : ChipConfig) (s : State), s.slot a = some c → s.allSucceed 4 →
    let k := channelIndex ch
    let sv := c.servo k
    let angle := clampAngle x
    let start : Int := ((sv.minOffset * 4096 * c.frequency / s.params.foDiv : Nat) : Int)
    let stop : Int := ((sv.maxOffset * 4096 * c.frequency / s.params.foDiv : Nat) : Int)
    sv.minOffset ≤ sv.midOffset → sv.midOffset ≤ sv.maxOffset →
    exec (.setStandardServoAngle ch x a) s = .next
      ((s.setSlot a (c.setServo k { sv with position := .standard angle })).ended 4
        (channelEvents a (slotBase sv.pinNumber.toNat) 0 (clampCount (start + angle * (stop - start) / 180))) .ok)

/-- R107, R106: `setContinuousServoSpeed` on a registered slot, at speed 0 or with an ordered calibration, stores the clamped
speed and writes the mid count plus or minus the floored share of the spread on its side. -/
def Obligations.ContinuousSpeedWritesTheMappedCount : Prop :=
  ∀ (ch x : Int) (a : Byte) (c : ChipConfig) (s : State), s.slot a = some c → s.allSucceed 4 →
    let k := channelIndex ch
    let sv := c.servo k
    let speed := clampSpeed x
    let start : Int := ((sv.minOffset * 4096 * c.frequency / s.params.foDiv : Nat) : Int)
    let mid : Int := ((sv.midOffset * 4096 * c.frequency / s.params.foDiv : Nat) : Int)
    let stop : Int := ((sv.maxOffset * 4096 * c.frequency / s.params.foDiv : Nat) : Int)
    (speed = 0 ∨ (sv.minOffset ≤ sv.midOffset ∧ sv.midOffset ≤ sv.maxOffset)) →
    exec (.setContinuousServoSpeed ch x a) s = .next
      ((s.setSlot a (c.setServo k { sv with position := .continuous speed })).ended 4
        (channelEvents a (slotBase sv.pinNumber.toNat) 0
          (clampCount (if 0 ≤ speed then mid + speed * (stop - mid) / 100 else mid - -speed * (mid - start) / 100))) .ok)

/-- R104: with a broken calibration order both motion commands (the continuous one at a speed other than 0) write some count
and do everything else as ever. The count is a free value (log entry 6): this says nothing of which. -/
def Obligations.BrokenOrderWritesSomeCount : Prop :=
  ∀ (ch x : Int) (a : Byte) (c : ChipConfig) (s : State), s.slot a = some c → s.dropDraw.allSucceed 4 →
    let k := channelIndex ch
    let sv := c.servo k
    ¬ (sv.minOffset ≤ sv.midOffset ∧ sv.midOffset ≤ sv.maxOffset) →
    (∃ n : Count, exec (.setStandardServoAngle ch x a) s = .next
      ((s.dropDraw.setSlot a (c.setServo k { sv with position := .standard (clampAngle x) })).ended 4
        (channelEvents a (slotBase sv.pinNumber.toNat) 0 n) .ok)) ∧
    (clampSpeed x ≠ 0 → ∃ n : Count, exec (.setContinuousServoSpeed ch x a) s = .next
      ((s.dropDraw.setSlot a (c.setServo k { sv with position := .continuous (clampSpeed x) })).ended 4
        (channelEvents a (slotBase sv.pinNumber.toNat) 0 n) .ok))

/-- R74, R75(c), R105, R106, R143, R146: when write `i` (from 0) of a motion command's four fails on a registered slot, the
new position has been stored and stays, the writes up to and with the failing one are the events, and the command answers
`Err(BusError)`. The count is the mapped one, or with a broken calibration order some count (log entry 6). -/
def Obligations.FailedMotionKeepsTheNewPosition : Prop :=
  ∀ (ch x : Int) (a : Byte) (c : ChipConfig) (s : State) (i : Nat), s.slot a = some c → i < 4 →
    let k := channelIndex ch
    let sv := c.servo k
    let standard := c.setServo k { sv with position := .standard (clampAngle x) }
    let continuous := c.setServo k { sv with position := .continuous (clampSpeed x) }
    let torn (n : Count) : List BusEvent := cutTrace i (channelEvents a (slotBase sv.pinNumber.toNat) 0 n)
    (ordered sv = true → s.failsAt i →
      exec (.setStandardServoAngle ch x a) s = .next ((s.setSlot a standard).failed (i + 1)
        (torn (clampCount (standardPwm s.params c.frequency sv (clampAngle x)))) .busError)) ∧
    (clampSpeed x = 0 ∨ ordered sv = true → s.failsAt i →
      exec (.setContinuousServoSpeed ch x a) s = .next ((s.setSlot a continuous).failed (i + 1)
        (torn (clampCount (continuousPwm s.params c.frequency sv (clampSpeed x)))) .busError)) ∧
    (ordered sv = false → s.dropDraw.failsAt i →
      (∃ n, exec (.setStandardServoAngle ch x a) s =
        .next ((s.dropDraw.setSlot a standard).failed (i + 1) (torn n) .busError)) ∧
      (clampSpeed x ≠ 0 → ∃ n, exec (.setContinuousServoSpeed ch x a) s =
        .next ((s.dropDraw.setSlot a continuous).failed (i + 1) (torn n) .busError))) ∧
    ∀ n, (torn n).length = i + 1

/-- R108: with an ordered calibration the off-count written is non-decreasing over the whole range of the angle operand and
constant outside 0..180. -/
def Obligations.AngleSweepIsMonotone : Prop :=
  ∀ (p : Params) (f : Nat) (sv : ServoConfig) (x y : Int), ordered sv = true →
    (x ≤ y → (clampCount (standardPwm p f sv (clampAngle x))).toNat ≤ (clampCount (standardPwm p f sv (clampAngle y))).toNat) ∧
    (x ≤ 0 → clampCount (standardPwm p f sv (clampAngle x)) = clampCount (startCount p f sv)) ∧
    (180 ≤ x → clampCount (standardPwm p f sv (clampAngle x)) = clampCount (endCount p f sv))

/-- R107: with an ordered calibration the continuous mapping runs from start at -100 through mid at 0 to end at 100,
non-decreasing. -/
def Obligations.SpeedSweepIsMonotone : Prop :=
  ∀ (p : Params) (f : Nat) (sv : ServoConfig), ordered sv = true →
    continuousPwm p f sv (-100) = startCount p f sv ∧ continuousPwm p f sv 0 = midCount p f sv ∧
    continuousPwm p f sv 100 = endCount p f sv ∧
    ∀ x y : Int, -100 ≤ x → x ≤ y → y ≤ 100 → continuousPwm p f sv x ≤ continuousPwm p f sv y

/-- R109, for `FO_DIV = 1000` and 16-bit offsets: no intermediate exceeds its stated size and none is negative, with an
ordered calibration. -/
def Obligations.IntermediatesFitTheirStatedSizes : Prop :=
  ∀ (p : Params) (f : Nat) (sv : ServoConfig) (angle speed : Int), p.foDiv = 1000 → 40 ≤ f → f ≤ 1000 →
    sv.maxOffset < 2 ^ 16 → ordered sv = true → 0 ≤ angle → angle ≤ 180 → -100 ≤ speed → speed ≤ 100 →
    sv.maxOffset * 4096 * f < 2 ^ 38 ∧ endCount p f sv < 2 ^ 28 ∧
    0 ≤ startCount p f sv ∧ startCount p f sv ≤ midCount p f sv ∧ midCount p f sv ≤ endCount p f sv ∧
    0 ≤ angle * (endCount p f sv - startCount p f sv) ∧ angle * (endCount p f sv - startCount p f sv) < 2 ^ 36 ∧
    |speed| * (endCount p f sv - startCount p f sv) < 2 ^ 35 ∧
    0 ≤ standardPwm p f sv angle ∧ standardPwm p f sv angle < 2 ^ 29 ∧
    0 ≤ continuousPwm p f sv speed ∧ continuousPwm p f sv speed < 2 ^ 29

/-- R177, for `FO_DIV = 1000`: on a registered slot, a channel with the default calibration 5, 15, 25 has an end count of at
least 4096, angle 180 (and above) and speed 100 (and above) write 4095, and at 50 Hz every angle from 135 on does. -/
def Obligations.DefaultCalibrationSaturates : Prop :=
  ∀ (ch x : Int) (a : Byte) (c : ChipConfig) (s : State), s.slot a = some c → s.allSucceed 4 →
    let k := channelIndex ch
    let sv := c.servo k
    let written := channelEvents a (slotBase sv.pinNumber.toNat) 0 4095
    s.params.foDiv = 1000 → 40 ≤ c.frequency → c.frequency ≤ 1000 →
    sv.minOffset = 5 → sv.midOffset = 15 → sv.maxOffset = 25 →
    4096 ≤ endCount s.params c.frequency sv ∧
    (180 ≤ x ∨ (c.frequency = 50 ∧ 135 ≤ x) → exec (.setStandardServoAngle ch x a) s = .next
      ((s.setSlot a (c.setServo k { sv with position := .standard (clampAngle x) })).ended 4 written .ok)) ∧
    (100 ≤ x → exec (.setContinuousServoSpeed ch x a) s = .next
      ((s.setSlot a (c.setServo k { sv with position := .continuous 100 })).ended 4 written .ok))

/-! ## Frames -/

/-- R12, R86(b): a command changes no slot but the one of its own address. -/
def Obligations.OtherChipsAreUntouched : Prop :=
  ∀ (i : Instr) (s t : State) (b : Byte), exec i s = .next t → b ≠ i.address → t.slot b = s.slot b

/-- R6, R42: no command changes the parameters or the commands waiting; it only takes answers, and only appends to the bus
trace, events at its own address. -/
def Obligations.CommandsOnlyAppendToTheTrace : Prop :=
  ∀ (i : Instr) (s t : State), exec i s = .next t →
    t.params = s.params ∧ t.commands = s.commands ∧ (∃ n, t.answers = s.answers.drop n) ∧
    ∃ events, t.trace = s.trace ++ events ∧
      ∀ e ∈ events, ∀ a r v ans, e = .write a r v ans → a = i.address

/-- R73, R84: `setPinPulseRange` and `getChipConfig` change no registered slot; `getChipConfig` and `setServoLimits` cause no
bus event on one (R92), so every location of the chip image reads as before. -/
def Obligations.ReadersLeaveARegisteredSlotAlone : Prop :=
  ∀ (s t : State) (a : Byte) (c : ChipConfig), s.slot a = some c →
    (∀ pin on off, exec (.setPinPulseRange pin on off a) s = .next t → t.cfg = s.cfg) ∧
    (exec (.getChipConfig a) s = .next t → t.cfg = s.cfg ∧ t.trace = s.trace ∧ t.answers = s.answers ∧
      t.fresh = s.fresh ∧ t.seq = s.seq ∧ ∀ b r, t.image b r = s.image b r) ∧
    (∀ ch mn mx md, exec (.setServoLimits ch mn mx md a) s = .next t → t.trace = s.trace ∧ t.answers = s.answers ∧
      t.fresh = s.fresh ∧ t.seq = s.seq ∧ ∀ b r, t.image b r = s.image b r)

/-- R124, R125, R86(c): on a registered slot, completed or aborted, `init` leaves every servo entry, `reset` also the
frequency. -/
def Obligations.BringUpKeepsTheServoEntries : Prop :=
  ∀ (s t : State) (a : Byte) (c : ChipConfig) (f : Int), s.slot a = some c →
    (exec (.init a f) s = .next t → ∃ c', t.slot a = some c' ∧ c'.servos = c.servos ∧ c'.frequency = clampFrequency f) ∧
    (exec (.reset a) s = .next t → ∃ c', t.slot a = some c' ∧ c'.servos = c.servos ∧ c'.frequency = c.frequency)

/-- R92: `setServoLimits` on a registered slot leaves the frequency, the phase, every other channel, and the channel's pin
and position. -/
def Obligations.SetServoLimitsFrame : Prop :=
  ∀ (s t : State) (a : Byte) (c : ChipConfig) (ch : Int) (mn mx : Nat) (md : Option Nat), s.slot a = some c →
    exec (.setServoLimits ch mn mx md a) s = .next t →
    ∃ c', t.slot a = some c' ∧ c'.frequency = c.frequency ∧ c'.phase = c.phase ∧
      (∀ j, j ≠ channelIndex ch → c'.servo j = c.servo j) ∧
      (c'.servo (channelIndex ch)).pinNumber = (c.servo (channelIndex ch)).pinNumber ∧
      (c'.servo (channelIndex ch)).position = (c.servo (channelIndex ch)).position

/-- R105, R106: a motion command on a registered slot, completed or failed, leaves the frequency, the phase, every other
channel, and the channel's pin and bounds. -/
def Obligations.MotionFrame : Prop :=
  ∀ (s t : State) (a : Byte) (c : ChipConfig) (ch x : Int), s.slot a = some c →
    (exec (.setStandardServoAngle ch x a) s = .next t ∨ exec (.setContinuousServoSpeed ch x a) s = .next t) →
    ∃ c', t.slot a = some c' ∧ c'.frequency = c.frequency ∧ c'.phase = c.phase ∧
      (∀ j, j ≠ channelIndex ch → c'.servo j = c.servo j) ∧
      ∃ pos, c'.servo (channelIndex ch) = { c.servo (channelIndex ch) with position := pos }

/-! ## The chip image (spec/20_memory.md R48) -/

/-- R48: the image of every location before any event, and what one more event does to it (a failed write: log entry 16). -/
def Obligations.ImageFollowsTheLastEvent : Prop :=
  ∀ (trace : List BusEvent) (a r v b q : Byte),
    (imageOf (trace ++ [.write a r v .success])).read (location b q) =
      (if b = a ∧ (q = r ∨ (isBroadcast r = true ∧ ∃ p : Nat, p < 16 ∧ q = slotBase p + (r - 0xFA))) then some v
       else (imageOf trace).read (location b q)) ∧
    (imageOf (trace ++ [.write a r v .busError])).read (location b q) =
      (if b = a ∧ q = r then none else (imageOf trace).read (location b q)) ∧
    (∀ n : Nat, (imageOf (trace ++ [.delay n])).read (location b q) = (imageOf trace).read (location b q)) ∧
    (imageOf []).read (location b q) = none

/-- The image is in canonical form after every trace (log entry 16). -/
def Obligations.ImageIsCanonical : Prop :=
  ∀ trace : List BusEvent, (imageOf trace).wf = true

/-- R33, R70, R105, R106: on a registered slot the encoder's commands change the image of no location but the four
registers of the slot they compute: of the clamped pin, or of the channel's pin. -/
def Obligations.ChannelWritesTouchOnlyTheirSlot : Prop :=
  ∀ (s t : State) (a b r : Byte) (c : ChipConfig) (pin on off ch x : Int), s.slot a = some c →
    (exec (.setPinPulseRange pin on off a) s = .next t →
      (b ≠ a ∨ ∀ j : Nat, j < 4 → r.toNat ≠ (slotBase (clampPin pin)).toNat + j) → t.image b r = s.image b r) ∧
    ((exec (.setStandardServoAngle ch x a) s = .next t ∨ exec (.setContinuousServoSpeed ch x a) s = .next t) →
      (b ≠ a ∨ ∀ j : Nat, j < 4 → r.toNat ≠ (slotBase (c.servo (channelIndex ch)).pinNumber.toNat).toNat + j) →
      t.image b r = s.image b r)

/-- R40: no command, completed or failed, changes the image of a register the block never writes, or of another chip. -/
def Obligations.UnwrittenRegistersKeepTheirImage : Prop :=
  ∀ (i : Instr) (s t : State) (b r : Byte), exec i s = .next t →
    (b ≠ i.address ∨ (0x01 ≤ r.toNat ∧ r.toNat ≤ 0x05) ∨ (0x46 ≤ r.toNat ∧ r.toNat ≤ 0xF9) ∨ r = 0xFF) →
    t.image b r = s.image b r

/-- R171: after an `init` or a `reset` whose writes succeed (on an unregistered slot this is the creation), every channel's
on and off registers on the chip were last told 0, and the positions of a registered slot stay. -/
def Obligations.BringUpZeroesEveryChannel : Prop :=
  ∀ (s t : State) (a : Byte) (f : Int), validAddress a = true → s.allSucceed 8 →
    (exec (.init a f) s = .next t ∨ exec (.reset a) s = .next t) →
    (∀ p j : Nat, p < 16 → j < 4 → t.image a (slotBase p + BitVec.ofNat 8 j) = some 0) ∧
    ∀ c k, s.slot a = some c → ∃ c', t.slot a = some c' ∧ (c'.servo k).position = (c.servo k).position

/-! ## Independence of the chips (R12, R154) -/

/-- R12, R75(d), R154: what a command writes, answers and stores depends on its own chip's slot, the parameters and the
inputs alone: two states that agree on these get the same events, the same response and the same slot. -/
def Obligations.ChipsDoNotInfluenceEachOther : Prop :=
  ∀ (i : Instr) (s s' t t' : State), s.slot i.address = s'.slot i.address → s.params = s'.params →
    s.answers = s'.answers → s.fresh = s'.fresh → exec i s = .next t → exec i s' = .next t' →
    t.slot i.address = t'.slot i.address ∧
    (∃ events, t.trace = s.trace ++ events ∧ t'.trace = s'.trace ++ events) ∧
    (∃ r, t.responses = s.responses ++ [r] ∧ t'.responses = s'.responses ++ [r])
end

