-- ==== Sys2Proof/Laws/Commands.lean ====
section
/-! SUPPORT. Every command is lookup-or-create and then its own body (spec/41_registry.md R81): the one shape all seven
meanings have, so that a proof about every command splits on the lookup once. -/

namespace Sys2Proof.Machine

/-- The frequency a command hands to lookup-or-create (R81). -/
def lookupFrequency : Instr → Int
  | .init _ frequency => frequency
  | _ => freqDefault

/-- What a command does after lookup-or-create. -/
def bodyOf (i : Instr) (found : Lookup) (s : State) : Run Response :=
  match i with
  | .init a f => if found.created then .done .ok s else bringUp a { found.config with frequency := clampFrequency f } s
  | .reset a => if found.created then .done .ok s else bringUp a found.config s
  | .setPinPulseRange pin on off a => (writeChannel a pin on off s).andThen fun _ s' => .done .ok s'
  | .setStandardServoAngle ch x a =>
    if ordered (found.config.servo (channelIndex ch)) then
      moveServo a found.config (channelIndex ch) (.standard (clampAngle x))
        (standardPwm s.params found.config.frequency (found.config.servo (channelIndex ch)) (clampAngle x)) s
    else moveServo a found.config (channelIndex ch) (.standard (clampAngle x)) s.drawCount.toNat s.dropDraw
  | .setContinuousServoSpeed ch x a =>
    if clampSpeed x = 0 ∨ ordered (found.config.servo (channelIndex ch)) then
      moveServo a found.config (channelIndex ch) (.continuous (clampSpeed x))
        (continuousPwm s.params found.config.frequency (found.config.servo (channelIndex ch)) (clampSpeed x)) s
    else moveServo a found.config (channelIndex ch) (.continuous (clampSpeed x)) s.drawCount.toNat s.dropDraw
  | .setServoLimits ch mn mx md a =>
    .done .ok (s.setSlot a (found.config.setServo (channelIndex ch)
      (setOffsets (found.config.servo (channelIndex ch)) mn mx md)))
  | .getChipConfig a => .done (.okConfig (configView a found.config)) s

/-- The shape of every command. -/
theorem exec_eq (i : Instr) (s : State) :
    exec i s = .next ((lookupOrCreate i.address (lookupFrequency i) s).andThen (bodyOf i)).finish := by
  cases i <;> rfl

/-- The lookup's frequency, clamped, is the one a slot is created with. -/
theorem clampFrequency_lookupFrequency (i : Instr) : clampFrequency (lookupFrequency i) = i.creationFrequency := by
  cases i <;> rfl

end Sys2Proof.Machine
end

