-- ==== Sys2Proof/Laws/Fields.lean ====
section
/-! SUPPORT. The eight fields of a packed command word (spec/30_encoding.md R50). -/

namespace Sys2Proof

/-- Cutting a concatenation below the boundary reads the lower part. -/
theorem extract_append_low {n m : Nat} (x : BitVec n) (y : BitVec m) (start len : Nat) (h : start + len ≤ m) :
    (x ++ y).extractLsb' start len = y.extractLsb' start len := by
  ext i hi
  simp [BitVec.getLsbD_append, show start + i < m by omega]

/-- Cutting a concatenation above the boundary reads the upper part. -/
theorem extract_append_high {n m : Nat} (x : BitVec n) (y : BitVec m) (start len : Nat) (h : m ≤ start) :
    (x ++ y).extractLsb' start len = x.extractLsb' (start - m) len := by
  ext i hi
  simp [BitVec.getLsbD_append, show ¬ start + i < m by omega, show start + i - m = start - m + i by omega]

/-- Cutting a whole vector out at 0 is the vector. -/
theorem extract_all {n : Nat} (x : BitVec n) (start : Nat) (h : start = 0) : x.extractLsb' start n = x := by
  subst h
  exact BitVec.extractLsb'_eq_self

/-- Each field of a packed word is the field that was packed. -/
theorem fields_packFields {operandW : Nat} (op : BitVec 4) (rsv : BitVec 3) (m : BitVec 1) (addr : Byte)
    (a b c d : Operand operandW) :
    fieldOp (packFields op rsv m addr a b c d) = op ∧ fieldRsv (packFields op rsv m addr a b c d) = rsv ∧
    fieldM (packFields op rsv m addr a b c d) = m ∧ fieldAddr (packFields op rsv m addr a b c d) = addr ∧
    fieldA (packFields op rsv m addr a b c d) = a ∧ fieldB (packFields op rsv m addr a b c d) = b ∧
    fieldC (packFields op rsv m addr a b c d) = c ∧ fieldD (packFields op rsv m addr a b c d) = d := by
  have e : ∀ start len, (packFields op rsv m addr a b c d).extractLsb' start len =
      (op ++ rsv ++ m ++ addr ++ a ++ b ++ c ++ d).extractLsb' start len := fun _ _ => rfl
  simp only [fieldOp, fieldRsv, fieldM, fieldAddr, fieldA, fieldB, fieldC, fieldD, e]
  refine ⟨?_, ?_, ?_, ?_, ?_, ?_, ?_, ?_⟩
  · iterate 7 rw [extract_append_high _ _ _ _ (by omega)]
    exact extract_all _ _ (by omega)
  · iterate 6 rw [extract_append_high _ _ _ _ (by omega)]
    rw [extract_append_low _ _ _ _ (by omega), extract_all _ _ (by omega)]
  · iterate 5 rw [extract_append_high _ _ _ _ (by omega)]
    rw [extract_append_low _ _ _ _ (by omega), extract_all _ _ (by omega)]
  · iterate 4 rw [extract_append_high _ _ _ _ (by omega)]
    rw [extract_append_low _ _ _ _ (by omega), extract_all _ _ (by omega)]
  · iterate 3 rw [extract_append_high _ _ _ _ (by omega)]
    rw [extract_append_low _ _ _ _ (by omega), extract_all _ _ (by omega)]
  · iterate 2 rw [extract_append_high _ _ _ _ (by omega)]
    rw [extract_append_low _ _ _ _ (by omega), extract_all _ _ (by omega)]
  · rw [extract_append_high _ _ _ _ (by omega), extract_append_low _ _ _ _ (by omega), extract_all _ _ (by omega)]
  · rw [extract_append_low _ _ _ _ (by omega), extract_all _ _ rfl]

/-- A port as wide as the word hands over the whole word. -/
theorem portWord_toNat {p : Params} (h : p.cmdW = 16 + 4 * p.operandW) (w : CmdWord p.operandW) :
    portWord p w.toNat = w := by
  have hc : 4 + 3 + 1 + 8 + p.operandW + p.operandW + p.operandW + p.operandW = p.cmdW := by omega
  have hw : w.toNat < 2 ^ p.cmdW := w.isLt.trans_eq (congrArg (2 ^ ·) hc)
  rw [portWord, Nat.mod_eq_of_lt hw, BitVec.ofNat_toNat, BitVec.setWidth_eq]

end Sys2Proof
end

