-- ==== Sys2Proof/Laws/Image.lean ====
section
/-! SUPPORT. The chip image's memory: every operation keeps the canonical form, and reading after writing, forgetting and
broadcasting (spec/20_memory.md R48). -/

namespace Sys2Proof.Machine

/-! ## The canonical form is kept -/

theorem above_write {m : Memory} {lo loc : Nat} (v : Byte) (h : m.above lo = true) (hl : lo < loc) :
    (m.write loc v).above lo = true := by
  cases m with
  | nil => simpa [Memory.write, Memory.above] using hl
  | cons cell rest =>
    obtain ⟨l, u⟩ := cell
    simp only [Memory.above, decide_eq_true_eq] at h
    unfold Memory.write
    split
    · simpa [Memory.above] using hl
    · split <;> simp_all [Memory.above]

theorem above_trans {m : Memory} {lo lo' : Nat} (h : m.above lo' = true) (hl : lo < lo') : m.above lo = true := by
  cases m with
  | nil => rfl
  | cons cell rest => simp only [Memory.above, decide_eq_true_eq] at *; omega

theorem above_forget {m : Memory} {lo : Nat} (loc : Nat) (hw : m.wf = true) (h : m.above lo = true) :
    (m.forget loc).above lo = true := by
  cases m with
  | nil => rfl
  | cons cell rest =>
    obtain ⟨l, u⟩ := cell
    simp only [Memory.wf, Bool.and_eq_true] at hw
    simp only [Memory.above, decide_eq_true_eq] at h
    unfold Memory.forget
    split
    · exact above_trans hw.1 h
    · simpa [Memory.above] using h

theorem write_wf {m : Memory} (loc : Nat) (v : Byte) (h : m.wf = true) : (m.write loc v).wf = true := by
  induction m with
  | nil => rfl
  | cons cell rest ih =>
    obtain ⟨l, u⟩ := cell
    have h' := h
    simp only [Memory.wf, Bool.and_eq_true] at h'
    unfold Memory.write
    split
    · rw [Memory.wf, h, Bool.and_true]
      simpa [Memory.above]
    · split
      · simp_all [Memory.wf]
      · simp only [Memory.wf, Bool.and_eq_true]
        exact ⟨above_write v h'.1 (by omega), ih h'.2⟩

theorem forget_wf {m : Memory} (loc : Nat) (h : m.wf = true) : (m.forget loc).wf = true := by
  induction m with
  | nil => rfl
  | cons cell rest ih =>
    obtain ⟨l, u⟩ := cell
    simp only [Memory.wf, Bool.and_eq_true] at h
    unfold Memory.forget
    split
    · exact h.2
    · simp only [Memory.wf, Bool.and_eq_true]
      exact ⟨above_forget loc h.2 h.1, ih h.2⟩

theorem broadcast_wf {m : Memory} (a r v : Byte) (n : Nat) (h : m.wf = true) : (m.broadcast a r v n).wf = true := by
  induction n with
  | zero => exact h
  | succ n ih => exact write_wf _ _ ih

/-- One event keeps the canonical form. -/
theorem apply_wf {m : Memory} (e : BusEvent) (h : m.wf = true) : (m.apply e).wf = true := by
  cases e with
  | delay n => exact h
  | write a r v ans =>
    cases ans with
    | busError => exact forget_wf _ h
    | success =>
      simp only [Memory.apply]
      split
      · exact broadcast_wf _ _ _ _ (write_wf _ _ h)
      · exact write_wf _ _ h

/-- The image of the trace at reset is in canonical form. -/
theorem reset_image_wf : (imageOf State.reset.trace).wf = true := rfl

/-! ## Reading back -/

theorem read_write_same (m : Memory) (loc : Nat) (v : Byte) : (m.write loc v).read loc = some v := by
  induction m with
  | nil => simp [Memory.write, Memory.read]
  | cons cell rest ih =>
    obtain ⟨l, u⟩ := cell
    unfold Memory.write
    split
    · simp [Memory.read]
    · split
      · simp [Memory.read]
      · simp [Memory.read, ih, show l ≠ loc by omega]

theorem read_write_other (m : Memory) {loc loc' : Nat} (v : Byte) (h : loc' ≠ loc) :
    (m.write loc v).read loc' = m.read loc' := by
  induction m with
  | nil => simp [Memory.write, Memory.read, h.symm]
  | cons cell rest ih =>
    obtain ⟨l, u⟩ := cell
    unfold Memory.write
    split
    · simp [Memory.read, h.symm]
    · split
      · subst_vars; simp [Memory.read, h.symm]
      · simp [Memory.read, ih]

/-- A location at or below the bound of a canonical memory is unknown. -/
theorem read_eq_none_of_above {m : Memory} {lo loc : Nat} (hw : m.wf = true) (h : m.above lo = true) (hl : loc ≤ lo) :
    m.read loc = none := by
  induction m generalizing lo with
  | nil => rfl
  | cons cell rest ih =>
    obtain ⟨l, u⟩ := cell
    simp only [Memory.wf, Bool.and_eq_true] at hw
    simp only [Memory.above, decide_eq_true_eq] at h
    simp [Memory.read, show l ≠ loc by omega, ih hw.2 hw.1 (by omega)]

theorem read_forget_same {m : Memory} (loc : Nat) (h : m.wf = true) : (m.forget loc).read loc = none := by
  induction m with
  | nil => rfl
  | cons cell rest ih =>
    obtain ⟨l, u⟩ := cell
    simp only [Memory.wf, Bool.and_eq_true] at h
    unfold Memory.forget
    split
    · subst_vars; exact read_eq_none_of_above h.2 h.1 (Nat.le_refl _)
    · simp [Memory.read, ih h.2, *]

theorem read_forget_other (m : Memory) {loc loc' : Nat} (h : loc' ≠ loc) : (m.forget loc).read loc' = m.read loc' := by
  induction m with
  | nil => rfl
  | cons cell rest ih =>
    obtain ⟨l, u⟩ := cell
    unfold Memory.forget
    split
    · subst_vars; simp [Memory.read, h.symm]
    · simp [Memory.read, ih]

theorem read_broadcast (m : Memory) (a r v : Byte) (n loc : Nat) :
    (m.broadcast a r v n).read loc =
      if ∃ p, p < n ∧ loc = location a (broadcastTarget r p) then some v else m.read loc := by
  induction n with
  | zero => simp [Memory.broadcast]
  | succ n ih =>
    by_cases h : loc = location a (broadcastTarget r n)
    · subst h
      have : ∃ p, p < n + 1 ∧ location a (broadcastTarget r n) = location a (broadcastTarget r p) := ⟨n, by omega, rfl⟩
      rw [if_pos this]
      exact read_write_same _ _ _
    · rw [Memory.broadcast, read_write_other _ _ h, ih]
      have : (∃ p, p < n + 1 ∧ loc = location a (broadcastTarget r p)) ↔
          ∃ p, p < n ∧ loc = location a (broadcastTarget r p) := by
        constructor
        · rintro ⟨p, hp, e⟩
          rcases Nat.lt_succ_iff_lt_or_eq.1 hp with hp | rfl
          · exact ⟨p, hp, e⟩
          · exact absurd e h
        · rintro ⟨p, hp, e⟩
          exact ⟨p, by omega, e⟩
      simp only [this]

/-- Locations of different pairs are different (R30). -/
theorem location_inj {a b r q : Byte} : location a r = location b q ↔ a = b ∧ r = q := by
  constructor
  · intro h
    simp only [location] at h
    have h1 := r.isLt
    have h2 := q.isLt
    exact ⟨BitVec.eq_of_toNat_eq (by omega), BitVec.eq_of_toNat_eq (by omega)⟩
  · rintro ⟨rfl, rfl⟩; rfl

theorem imageOf_append (t u : List BusEvent) : imageOf (t ++ u) = u.foldl Memory.apply (imageOf t) := by
  simp [imageOf, List.foldl_append]

end Sys2Proof.Machine
end

