-- ==== Sys2Proof/Laws/PerInstr.lean ====
section
/-! SUPPORT. Statements made once per command: the fixed fields of a command's word (spec/30_encoding.md R50, R52, R57). -/

namespace Sys2Proof.Laws.EncodeFields

/-- The word of the command, for every width of the operand fields, holds the command's operation number, `rsv = 0` and the
command's address. -/
def Statement (i : Instr) : Prop :=
  ∀ operandW : Nat, fieldOp (encode operandW i) = i.opcode ∧ fieldRsv (encode operandW i) = 0 ∧
    fieldAddr (encode operandW i) = i.address

theorem of_packFields {i : Instr}
    (h : ∀ operandW, ∃ (m : BitVec 1) (a b c d : Operand operandW),
      encode operandW i = packFields i.opcode 0 m i.address a b c d) : Statement i := by
  intro operandW
  obtain ⟨m, a, b, c, d, h⟩ := h operandW
  obtain ⟨hop, hrsv, -, haddr, -⟩ := fields_packFields i.opcode 0 m i.address a b c d
  exact ⟨h ▸ hop, h ▸ hrsv, h ▸ haddr⟩

theorem init (address : Byte) (frequency : Int) : Statement (.init address frequency) := of_packFields fun _ => ⟨_, _, _, _, _, rfl⟩

theorem reset (address : Byte) : Statement (.reset address) := of_packFields fun _ => ⟨_, _, _, _, _, rfl⟩

theorem setPinPulseRange (pin onStep offStep : Int) (address : Byte) :
    Statement (.setPinPulseRange pin onStep offStep address) := of_packFields fun _ => ⟨_, _, _, _, _, rfl⟩

theorem setStandardServoAngle (channel angle : Int) (address : Byte) :
    Statement (.setStandardServoAngle channel angle address) := of_packFields fun _ => ⟨_, _, _, _, _, rfl⟩

theorem setContinuousServoSpeed (channel speed : Int) (address : Byte) :
    Statement (.setContinuousServoSpeed channel speed address) := of_packFields fun _ => ⟨_, _, _, _, _, rfl⟩

theorem setServoLimits (channel : Int) (minOffset maxOffset : Nat) (midOffset : Option Nat) (address : Byte) :
    Statement (.setServoLimits channel minOffset maxOffset midOffset address) := of_packFields fun _ => ⟨_, _, _, _, _, rfl⟩

theorem getChipConfig (address : Byte) : Statement (.getChipConfig address) := of_packFields fun _ => ⟨_, _, _, _, _, rfl⟩

end Sys2Proof.Laws.EncodeFields
end

