-- ==== Sys2Proof/Laws/Step.lean ====
section
/-! SUPPORT. What one step can do (spec/00_scope.md R9). -/

namespace Sys2Proof.Machine

/-- A step that answers a next state waited, or ran the command its word decodes to, or took `IllegalCommand`. -/
theorem step_cases {s t : State} (h : step s = .next t) :
    t = s ∨ ∃ w rest, s.commands = w :: rest ∧
      ((∃ i, decode s.params.operandW (portWord s.params w) = .ok i ∧ exec i { s with commands := rest } = .next t) ∨
       ((∃ e, decode s.params.operandW (portWord s.params w) = .error e) ∧
        t = ({ s with commands := rest } : State).takeError .illegalCommand)) := by
  unfold step fetch at h
  cases hc : s.commands with
  | nil =>
    simp only [hc, Host.Outcome.next.injEq] at h
    exact .inl h.symm
  | cons w rest =>
    refine .inr ⟨w, rest, rfl, ?_⟩
    simp only [hc] at h
    cases hd : decode s.params.operandW (portWord s.params w) with
    | ok i =>
      simp only [hd] at h
      exact .inl ⟨i, rfl, h⟩
    | error e =>
      simp only [hd, Host.Outcome.next.injEq] at h
      exact .inr ⟨⟨e, rfl⟩, h.symm⟩

end Sys2Proof.Machine
end

