-- ==== Sys2Proof/Tests/Slice0.lean ====
section
/-! SUPPORT. Tests. Expected values are those spec/95_test_vectors.md prints, named by their ids; then, for every
obligation with hypotheses, concrete values that meet all of them together. -/

namespace Sys2Proof.Tests

open Sys2Proof Sys2Proof.Machine

/-! ## Well-formedness: one ill-formed term for each check -/

theorem test_wf_init : (Instr.init 0x40 32768).wellFormed 16 = false := by decide
theorem test_wf_pin : (Instr.setPinPulseRange (-32769) 0 0 0x40).wellFormed 16 = false := by decide
theorem test_wf_onStep : (Instr.setPinPulseRange 0 32768 0 0x40).wellFormed 16 = false := by decide
theorem test_wf_offStep : (Instr.setPinPulseRange 0 0 (-32769) 0x40).wellFormed 16 = false := by decide
theorem test_wf_standard_channel : (Instr.setStandardServoAngle 32768 0 0x40).wellFormed 16 = false := by decide
theorem test_wf_angle : (Instr.setStandardServoAngle 1 32768 0x40).wellFormed 16 = false := by decide
theorem test_wf_continuous_channel : (Instr.setContinuousServoSpeed (-32769) 0 0x40).wellFormed 16 = false := by decide
theorem test_wf_speed : (Instr.setContinuousServoSpeed 1 (-32769) 0x40).wellFormed 16 = false := by decide
theorem test_wf_limits_channel : (Instr.setServoLimits 32768 1 2 none 0x40).wellFormed 16 = false := by decide
theorem test_wf_minOffset : (Instr.setServoLimits 1 65536 2 none 0x40).wellFormed 16 = false := by decide
theorem test_wf_maxOffset : (Instr.setServoLimits 1 1 65536 none 0x40).wellFormed 16 = false := by decide
theorem test_wf_midOffset : (Instr.setServoLimits 1 1 2 (some 65536) 0x40).wellFormed 16 = false := by decide

/-! ## Decoding and encoding: words printed in spec/95_test_vectors.md (ids I3, X1, E4, A10, V1, L1, L2, D7, D1, D4, D9) -/

theorem test_decode_init : decode 16 0x00401388000000000000 = .ok (.init 0x40 5000) := by decide
theorem test_decode_reset : decode 16 0x10400000000000000000 = .ok (.reset 0x40) := by decide
theorem test_decode_setPinPulseRange :
    decode 16 0x207EFFFF0FFF00000000 = .ok (.setPinPulseRange (-1) 4095 0 0x7E) := by decide
theorem test_decode_setStandardServoAngle :
    decode 16 0x30400001FFFD00000000 = .ok (.setStandardServoAngle 1 (-3) 0x40) := by decide
theorem test_decode_setContinuousServoSpeed :
    decode 16 0x40400002FE0C00000000 = .ok (.setContinuousServoSpeed 2 (-500) 0x40) := by decide
theorem test_decode_setServoLimits_four :
    decode 16 0x50400001000200060000 = .ok (.setServoLimits 1 2 6 none 0x40) := by decide
theorem test_decode_setServoLimits_five :
    decode 16 0x51400001000200060003 = .ok (.setServoLimits 1 2 6 (some 3) 0x40) := by decide
theorem test_decode_getChipConfig : decode 16 0x61400000000000000000 = .ok (.getChipConfig 0x40) := by decide
theorem test_decode_illegal_seven : decode 16 0x70400000000000000000 = .error (.illegalOp 7) := by decide
theorem test_decode_illegal_fifteen : decode 16 0xFFFFFFFFFFFFFFFFFFFF = .error (.illegalOp 15) := by decide
theorem test_decode_zero_word : decode 16 0 = .ok (.init 0x00 0) := by decide
theorem test_encode_limits : encode 16 (.setServoLimits 17 0 65535 none 0x40) = 0x504000110000FFFF0000 := by decide
theorem test_encode_pulse : encode 16 (.setPinPulseRange 99 (-7) 5000 0x40) = 0x20400063FFF913880000 := by decide
/-- R6 with `OPERAND_W = 8`: the same fields in a word of 48 bits -/
theorem test_decode_eight_bit_operands : decode 8 0x304002FD0000 = .ok (.setStandardServoAngle 2 (-3) 0x40) := by decide
theorem test_table_word : decodeTableWord 80 0x6E40DEADBEEFCAFEF00D = some (.getChipConfig 0x40) := by decide

set_option maxRecDepth 10000

/-- R57, id L2 -/
theorem test_assemble_limits :
    assembleLine 16 "setServoLimits(1, 2, 6, 3, 0x40) ; m = 1".toList = some 0x51400001000200060003 := by decide
/-- R57, id A10 -/
theorem test_assemble_angle : assembleLine 16 "setStandardServoAngle(1, -3, 0x40)".toList = some 0x30400001FFFD00000000 := by
  decide
/-- log entry 20: a number outside its field is refused -/
theorem test_assemble_too_wide : assembleLine 16 "setServoLimits(1, 0, 65536, 0x40)".toList = none ∧
    assembleLine 16 "setStandardServoAngle(0xFFF9, 0, 0x40)".toList = none ∧
    assembleLine 16 "reset(0x100)".toList = none := by decide
/-- R57: the address is never left out -/
theorem test_assemble_no_default : assembleLine 16 "setStandardServoAngle(1, 90)".toList = none := by decide

/-! ## States -/

/-- `n` writes answered with success. -/
def ok (n : Nat) : List BusAnswer := List.replicate n .success

/-- Chip 0x40 Running at 50 Hz with the default calibration; the next twelve writes succeed. -/
def running : State := { State.reset.setSlot 0x40 (defaultConfig 50) with answers := ok 12 }

/-- The same with channel 1 calibrated (2, 4, 6). -/
def calibrated : State :=
  running.setSlot 0x40 ((defaultConfig 50).setServo 0
    { pinNumber := 0, minOffset := 2, midOffset := 4, maxOffset := 6, position := .unset })

/-- The same with channel 1 calibrated (6, 4, 2), which is out of order. -/
def broken : State :=
  running.setSlot 0x40 ((defaultConfig 50).setServo 0
    { pinNumber := 0, minOffset := 6, midOffset := 4, maxOffset := 2, position := .unset })

/-- Nothing registered; the next twelve writes succeed. -/
def blank : State := { State.reset with answers := ok 12 }

/-- The write after the next `k` ones fails. -/
def failing (k : Nat) (s : State) : State := { s with answers := ok k ++ [.busError] }

/-- The next state, where there is one. -/
def after (o : Host.Outcome State Fault Refusal) : State :=
  match o with
  | .next s => s
  | .fault _ => State.reset
  | .refused _ => State.reset

/-- The state after a command. -/
def ran (i : Instr) (s : State) : State := after (exec i s)

/-- The slot of 0x40 after a command. -/
def slotAfter (i : Instr) (s : State) : ChipConfig := ((ran i s).slot 0x40).getD (defaultConfig 0)

/-! ## One step -/

/-- id I1 -/
theorem test_init_hit : slotAfter (.init 0x40 60) calibrated =
    { (calibrated.slot 0x40).getD (defaultConfig 0) with frequency := 60 } := by decide
/-- id F8: the second write fails -/
theorem test_init_aborted : (ran (.init 0x40 200) (failing 1 running)).trace =
      [.write 0x40 0x00 0x11 .success, .write 0x40 0xFE 0x1E .busError] ∧
    (slotAfter (.init 0x40 200) (failing 1 running)).frequency = 200 ∧
    (ran (.init 0x40 200) (failing 1 running)).phase 0x40 = .initializing := by decide
/-- id X2: one sequence at 50 Hz creates the slot -/
theorem test_reset_miss : (ran (.reset 0x40) blank).trace =
    [.write 0x40 0x00 0x11 .success, .write 0x40 0xFE 0x79 .success, .write 0x40 0xFA 0 .success,
     .write 0x40 0xFB 0 .success, .write 0x40 0xFC 0 .success, .write 0x40 0xFD 0 .success,
     .write 0x40 0x00 0x01 .success, .delay 500, .write 0x40 0x00 0x81 .success] := by decide
/-- id E3 -/
theorem test_setPinPulseRange : (ran (.setPinPulseRange 99 (-7) 5000 0x40) running).trace =
    [.write 0x40 0x42 0x00 .success, .write 0x40 0x43 0x00 .success, .write 0x40 0x44 0xFF .success,
     .write 0x40 0x45 0x0F .success] := by decide
/-- id E6: the second write fails -/
theorem test_setPinPulseRange_torn : (ran (.setPinPulseRange 0 0 4095 0x40) (failing 1 running)).trace =
      [.write 0x40 0x06 0x00 .success, .write 0x40 0x07 0x00 .busError] ∧
    (ran (.setPinPulseRange 0 0 4095 0x40) (failing 1 running)).responses = [.err .busError] := by decide
/-- id A12 -/
theorem test_setStandardServoAngle : (ran (.setStandardServoAngle 1 1 0x40) calibrated).trace =
    [.write 0x40 0x06 0x00 .success, .write 0x40 0x07 0x00 .success, .write 0x40 0x08 0x9D .success,
     .write 0x40 0x09 0x01 .success] := by decide
/-- id F10: the third write fails -/
theorem test_setStandardServoAngle_torn :
    ((slotAfter (.setStandardServoAngle 16 0 0x40) (failing 2 running)).servo 15).position = .standard 0 ∧
    (ran (.setStandardServoAngle 16 0 0x40) (failing 2 running)).responses = [.err .busError] ∧
    (ran (.setStandardServoAngle 16 0 0x40) (failing 2 running)).trace =
      [.write 0x40 0x42 0 .success, .write 0x40 0x43 0 .success, .write 0x40 0x44 0 .busError] := by decide
/-- id V11 for channel 1 -/
theorem test_setContinuousServoSpeed : (ran (.setContinuousServoSpeed 1 (-50) 0x40) calibrated).trace =
    [.write 0x40 0x06 0x00 .success, .write 0x40 0x07 0x00 .success, .write 0x40 0x08 0x66 .success,
     .write 0x40 0x09 0x02 .success] := by decide
/-- section 2.6, broken order at speed 0 -/
theorem test_setContinuousServoSpeed_stop : (ran (.setContinuousServoSpeed 1 0 0x40) broken).trace =
    [.write 0x40 0x06 0x00 .success, .write 0x40 0x07 0x00 .success, .write 0x40 0x08 0x33 .success,
     .write 0x40 0x09 0x03 .success] := by decide
/-- id L5 -/
theorem test_setServoLimits_midpoint : (slotAfter (.setServoLimits 17 0 65535 none 0x40) running).servo 15 =
    { pinNumber := 15, minOffset := 0, midOffset := 32767, maxOffset := 65535, position := .unset } := by decide
/-- id L8 -/
theorem test_setServoLimits_given : (slotAfter (.setServoLimits 1 2 6 (some 9) 0x40) running).servo 0 =
    { pinNumber := 0, minOffset := 2, midOffset := 9, maxOffset := 6, position := .unset } := by decide
/-- id G4 -/
theorem test_getChipConfig_creates : ((ran (.getChipConfig 0x7E) blank).slot 0x7E) = some (defaultConfig 50) := by decide
/-- ids F1, F2 -/
theorem test_getChipConfig_invalid : (ran (.getChipConfig 0x7F) running).responses = [.err .invalidAddress] ∧
    (ran (.getChipConfig 0x3F) running).responses = [.err .invalidAddress] := by decide
/-- program P1, chip image of a channel and of a channel reached by the broadcast alone -/
theorem test_image : (ran (.setStandardServoAngle 1 90 0x40) blank).image 0x40 0x09 = some 0x0C ∧
    (ran (.setStandardServoAngle 1 90 0x40) blank).image 0x40 0x45 = some 0x00 ∧
    (ran (.setStandardServoAngle 1 90 0x40) blank).image 0x40 0x01 = none := by decide
/-- program P4 step 3: OFF_L unknown after its write failed -/
theorem test_image_torn :
    (ran (.setPinPulseRange 0 0 1 0x40) (failing 2 (ran (.getChipConfig 0x40) blank))).image 0x40 0x08 = none ∧
    (ran (.setPinPulseRange 0 0 1 0x40) (failing 2 (ran (.getChipConfig 0x40) blank))).image 0x40 0x09 = some 0 := by
  decide
/-- A word placed by `withFetchWord` is the next command (id D5: no address check). -/
theorem test_step_placed :
    (after (step (State.reset.withFetchWord 80 0x70000000000000000000))).responses = [.err .illegalCommand] := by decide

/-! ## Witnesses: the hypotheses of each obligation that has some, met together -/

/-- Two illegal words with the same `op`. -/
theorem test_witness_IgnoredBitsDoNotChangeTheCommand :
    fieldOp (operandW := 16) 0x70400000000000000000 = fieldOp (operandW := 16) 0x7FFFFFFFFFFFFFFFFFFF ∧ 7 ≤ (fieldOp (operandW := 16) 0x70400000000000000000).toNat := by
  decide
/-- Both ends of a 16-bit field. -/
theorem test_witness_DecodeOfEncodeIsTheCommand :
    (Instr.setStandardServoAngle (-32768) 32767 0x40).wellFormed 16 = true ∧ (Instr.getChipConfig 0xFF).wellFormed 16 = true := by
  decide
theorem test_witness_DecodedCommandIsWellFormed :
    decode 16 0x30407FFF800000000000 = .ok (.setStandardServoAngle 32767 (-32768) 0x40) := by decide
theorem test_witness_AssemblerCallOfACommandIsTheCommand :
    (Instr.setServoLimits (-32768) 0 65535 (some 65535) 0xFF).wellFormed 16 = true := by decide

theorem test_witness_AssemblerLineOfACommandIsItsWord :
    (Instr.setPinPulseRange (-32768) 32767 0 0xFF).wellFormed 16 = true := by decide

theorem test_witness_StepRunsTheDecodedCommand :
    (running.withFetchWord 80 0x60400000000000000000).commands = 0x60400000000000000000 :: running.commands ∧
    decode running.params.operandW (portWord running.params 0x60400000000000000000) = .ok (.getChipConfig 0x40) ∧
    running.params.valid = true ∧ (Instr.setServoLimits 1 2 6 (some 3) 0x40).wellFormed running.params.operandW = true ∧
    (running.withFetchWord 80 0x51400001000200060003).commands =
      (encode running.params.operandW (.setServoLimits 1 2 6 (some 3) 0x40)).toNat :: running.commands := by decide
/-- The least and the greatest illegal `op`. -/
theorem test_witness_IllegalWordAnswersIllegalCommand :
    (running.withFetchWord 80 0x70400000000000000000).commands = 0x70400000000000000000 :: running.commands ∧
    7 ≤ (fieldOp (portWord running.params 0x70400000000000000000)).toNat ∧
    (running.withFetchWord 80 0xFFFFFFFFFFFFFFFFFFFF).commands = 0xFFFFFFFFFFFFFFFFFFFF :: running.commands ∧
    7 ≤ (fieldOp (portWord running.params 0xFFFFFFFFFFFFFFFFFFFF)).toNat := by decide
theorem test_witness_EveryCommandAnswersExactlyOnce : ∃ t, exec (.getChipConfig 0x40) blank = .next t := ⟨_, rfl⟩
theorem test_witness_ReservedErrorsAreNeverAnswered :
    (∃ t, step (ran (.getChipConfig 0x3F) running) = .next t) ∧
    (ran (.getChipConfig 0x3F) running).responses = [.err .invalidAddress] ∧
    ∀ r ∈ (ran (.getChipConfig 0x3F) running).responses, r ≠ .err .channelOutOfRange ∧ r ≠ .err .uncalibratedServo :=
  ⟨⟨_, rfl⟩, by decide, by decide⟩
/-- The addresses next to the valid range and the ends of the byte. -/
theorem test_witness_InvalidAddressIsCheckedFirst :
    ∀ a ∈ [0x00, 0x3F, 0x7F, 0xFF], (Instr.getChipConfig a).address.toNat < 0x40 ∨
      0x7E < (Instr.getChipConfig a).address.toNat := by decide
/-- The ends of the valid range, on an unregistered and on a registered slot. -/
theorem test_witness_InvalidAddressIsCheckedFirst_valid :
    (∀ a ∈ [0x40, 0x7E], 0x40 ≤ (Instr.getChipConfig a).address.toNat ∧ (Instr.getChipConfig a).address.toNat ≤ 0x7E) ∧
    (∃ t, exec (.getChipConfig 0x40) running = .next t) ∧ (∃ t, exec (.getChipConfig 0x7E) blank = .next t) :=
  ⟨by decide, ⟨_, rfl⟩, ⟨_, rfl⟩⟩

/-- The state the invariant's witness steps from: a registered slot and a command waiting. -/
theorem test_witness_StepKeepsTheStateInvariant :
    (running.withFetchWord 80 0x0040003C000000000000).Inv ∧
    ∃ t, step (running.withFetchWord 80 0x0040003C000000000000) = .next t := by
  refine ⟨⟨by decide, by decide, ?_⟩, _, rfl⟩
  intro a c h
  change (State.reset.setSlot 0x40 (defaultConfig 50)).slot a = some c at h
  by_cases ha : a = 0x40
  · subst ha
    rw [setSlot_slot_same _ (by decide)] at h
    cases h
    exact ⟨by decide, by decide, by decide⟩
  · rw [setSlot_slot_other _ _ ha] at h
    simp [State.slot, State.reset, Vector.getElem?_replicate] at h
    split at h <;> simp at h
theorem test_witness_StepWritesOnlyAllowedRegisters :
    (ran (.getChipConfig 0x40) blank).params.valid = true ∧ (ran (.getChipConfig 0x40) blank).trace ≠ [] ∧
    TraceAllowed (ran (.getChipConfig 0x40) blank).trace ∧
    ∃ t, step ((ran (.getChipConfig 0x40) blank).withFetchWord 80 0x10400000000000000000) = .next t :=
  ⟨by decide, by decide, by unfold TraceAllowed; decide, _, rfl⟩
/-- The least trace with a PRESCALE write. -/
theorem test_witness_PrescaleIsWrittenOnlyAfterSleep :
    PrescaleGuarded 0x11 [.write 0x40 0x00 0x11 .success, .write 0x40 0xFE 0x79 .success] ∧
    ∃ t, step { running with trace := [.write 0x40 0x00 0x11 .success, .write 0x40 0xFE 0x79 .success] } = .next t := by
  refine ⟨?_, _, rfl⟩
  intro before after a v ans h
  match before, h with
  | [], h => simp at h
  | [e], h =>
    simp only [List.singleton_append, List.cons.injEq, BusEvent.write.injEq] at h
    obtain ⟨rfl, ⟨rfl, -⟩, -⟩ := h
    exact ⟨[], rfl⟩
  | _ :: _ :: rest, h => simp at h

/-- Two of the five commands, at both ends of the address range. -/
theorem test_witness_MissCreatesTheSlotThenRunsTheCommand :
    (∀ a f, Instr.setPinPulseRange 0 0 4095 0x40 ≠ .init a f) ∧ (∀ a, Instr.setPinPulseRange 0 0 4095 0x40 ≠ .reset a) ∧
    (∀ a f, Instr.setStandardServoAngle 1 90 0x7E ≠ .init a f) ∧ (∀ a, Instr.setStandardServoAngle 1 90 0x7E ≠ .reset a) ∧
    validAddress 0x40 = true ∧ validAddress 0x7E = true ∧ blank.slot 0x40 = none ∧ blank.slot 0x7E = none ∧
    blank.allSucceed 8 :=
  ⟨nofun, nofun, nofun, nofun, by decide, by decide, by decide, by decide, by decide⟩
/-- The first and the last write of the sequence. -/
theorem test_witness_FailedCreationStoresNothing :
    validAddress (Instr.getChipConfig 0x40).address = true ∧ (failing 0 blank).slot 0x40 = none ∧
    (failing 0 blank).failsAt 0 ∧ (failing 7 blank).slot 0x40 = none ∧ (failing 7 blank).failsAt 7 := by decide
theorem test_witness_GetChipConfigAnswersTheSlot : running.slot 0x40 = some (defaultConfig 50) := by decide
theorem test_witness_ConfigCopyShowsTheSlot :
    calibrated.slot 0x40 = some ((defaultConfig 50).setServo 0
      { pinNumber := 0, minOffset := 2, midOffset := 4, maxOffset := 6, position := .unset }) := by decide
/-- The first call creates the slot. -/
theorem test_witness_GetChipConfigTwiceAnswersTheSame : ∃ t, exec (.getChipConfig 0x40) blank = .next t ∧
    t.responses = blank.responses ++ [.okConfig (configView 0x40 (defaultConfig 50))] := ⟨_, rfl, by decide⟩

/-- Both ends of the frequency range. -/
theorem test_witness_PrescalerIsTheNearestInteger :
    (40 : Nat) ≤ 40 ∧ (40 : Nat) ≤ 1000 ∧ (40 : Nat) ≤ 1000 ∧ (1000 : Nat) ≤ 1000 := by decide
theorem test_witness_InitCreatesAtItsFrequency :
    validAddress 0x40 = true ∧ blank.slot 0x40 = none ∧ blank.allSucceed 8 := by decide
theorem test_witness_ResetCreatesAtFiftyHertz :
    validAddress 0x7E = true ∧ blank.slot 0x7E = none ∧ blank.allSucceed 8 := by decide
theorem test_witness_InitRunsTheSequenceAndStoresTheFrequency :
    running.slot 0x40 = some (defaultConfig 50) ∧ running.allSucceed 8 := by decide
theorem test_witness_AbortedInitKeepsTheNewFrequency :
    (failing 0 running).slot 0x40 = some (defaultConfig 50) ∧ (0 : Nat) < 8 ∧ (failing 0 running).failsAt 0 ∧
    (failing 7 running).slot 0x40 = some (defaultConfig 50) ∧ (7 : Nat) < 8 ∧ (failing 7 running).failsAt 7 := by decide
theorem test_witness_ResetRunsTheSequenceAtTheStoredFrequency :
    running.slot 0x40 = some (defaultConfig 50) ∧ running.allSucceed 8 := by decide
theorem test_witness_AbortedResetLeavesInitializing :
    (failing 0 running).slot 0x40 = some (defaultConfig 50) ∧ (0 : Nat) < 8 ∧ (failing 0 running).failsAt 0 ∧
    (failing 7 running).slot 0x40 = some (defaultConfig 50) ∧ (7 : Nat) < 8 ∧ (failing 7 running).failsAt 7 := by decide
/-- One state per row of the table, the sequence completed and aborted. -/
theorem test_witness_PhaseFollowsTheBringUpTable :
    (∃ t, exec (.getChipConfig 0x40) blank = .next t) ∧ blank.phase 0x40 = .unregistered ∧ blank.allSucceed 8 ∧
    (failing 0 blank).phase 0x40 = .unregistered ∧ ¬ (failing 0 blank).allSucceed 8 ∧
    (∃ t, exec (.init 0x40 60) running = .next t) ∧ running.phase 0x40 ≠ .unregistered ∧ running.allSucceed 8 ∧
    (∃ a f, Instr.init 0x40 60 = .init a f) ∧ (failing 0 running).phase 0x40 ≠ .unregistered ∧
    ¬ (failing 0 running).allSucceed 8 ∧ (∃ t, exec (.getChipConfig 0x40) running = .next t) ∧
    (∀ a f, Instr.getChipConfig 0x40 ≠ .init a f) ∧ (∀ a, Instr.getChipConfig 0x40 ≠ .reset a) :=
  ⟨⟨_, rfl⟩, by decide, by decide, by decide, by decide, ⟨_, rfl⟩, by decide, by decide, ⟨_, _, rfl⟩, by decide,
    by decide, ⟨_, rfl⟩, nofun, nofun⟩

/-- The first and the last pin. -/
theorem test_witness_ChannelSlotRegisters : (0 : Nat) ≤ 15 ∧ (15 : Nat) ≤ 15 := by decide
theorem test_witness_SetPinPulseRangeWritesTheChannelSlot :
    running.slot 0x40 = some (defaultConfig 50) ∧ running.allSucceed 4 := by decide
theorem test_witness_FailedChannelWriteIsTorn :
    (failing 0 running).slot 0x40 = some (defaultConfig 50) ∧ (0 : Nat) < 4 ∧ (failing 0 running).failsAt 0 ∧
    (failing 3 running).slot 0x40 = some (defaultConfig 50) ∧ (3 : Nat) < 4 ∧ (failing 3 running).failsAt 3 := by decide
theorem test_witness_SetServoLimitsStoresTheBounds : running.slot 0x40 = some (defaultConfig 50) := by decide
/-- Either order of the bounds. -/
theorem test_witness_MidpointLiesBetweenTheBounds :
    ((0 : Nat) : Int) ≤ ((65535 : Nat) : Int) ∧ ((3 : Nat) : Int) < ((6 : Nat) : Int) ∧ 0 < 2 ^ 16 ∧ 65535 < 2 ^ 16 := by
  decide

theorem test_witness_StandardAngleWritesTheMappedCount :
    running.slot 0x40 = some (defaultConfig 50) ∧ running.allSucceed 4 ∧
    ((defaultConfig 50).servo (channelIndex 16)).minOffset ≤ ((defaultConfig 50).servo (channelIndex 16)).midOffset ∧
    ((defaultConfig 50).servo (channelIndex 16)).midOffset ≤ ((defaultConfig 50).servo (channelIndex 16)).maxOffset := by
  decide
/-- An ordered calibration at a reverse and a forward speed, and a broken one at speed 0. -/
theorem test_witness_ContinuousSpeedWritesTheMappedCount :
    running.slot 0x40 = some (defaultConfig 50) ∧ running.allSucceed 4 ∧
    ordered ((defaultConfig 50).servo (channelIndex 1)) = true ∧ clampSpeed (-500) < 0 ∧ 0 < clampSpeed 500 ∧
    (∃ c, broken.slot 0x40 = some c ∧ ordered (c.servo (channelIndex 1)) = false) ∧ broken.allSucceed 4 ∧
    clampSpeed 0 = 0 := by
  refine ⟨by decide, by decide, by decide, by decide, by decide, ⟨_, rfl, by decide⟩, by decide, by decide⟩
theorem test_witness_BrokenOrderWritesSomeCount :
    (∃ c, broken.slot 0x40 = some c ∧ ¬ ((c.servo (channelIndex 1)).minOffset ≤ (c.servo (channelIndex 1)).midOffset ∧
      (c.servo (channelIndex 1)).midOffset ≤ (c.servo (channelIndex 1)).maxOffset)) ∧
    broken.dropDraw.allSucceed 4 ∧ clampSpeed 30 ≠ 0 := ⟨⟨_, rfl, by decide⟩, by decide, by decide⟩
/-- The first and the last write failing, on an ordered calibration, on a broken one, and on a broken one at speed 0. -/
theorem test_witness_FailedMotionKeepsTheNewPosition :
    (failing 0 running).slot 0x40 = some (defaultConfig 50) ∧ (0 : Nat) < 4 ∧ (3 : Nat) < 4 ∧
    ordered ((defaultConfig 50).servo (channelIndex 1)) = true ∧ (failing 0 running).failsAt 0 ∧
    (failing 3 running).slot 0x40 = some (defaultConfig 50) ∧ (failing 3 running).failsAt 3 ∧
    (∃ c, (failing 0 broken).slot 0x40 = some c ∧ ordered (c.servo (channelIndex 1)) = false) ∧
    (failing 0 broken).dropDraw.failsAt 0 ∧ (failing 0 broken).failsAt 0 ∧ clampSpeed 0 = 0 ∧ clampSpeed 30 ≠ 0 :=
  ⟨by decide, by decide, by decide, by decide, by decide, by decide, by decide, ⟨_, rfl, by decide⟩, by decide, by decide,
    by decide, by decide⟩
/-- The ends of both ranges. -/
theorem test_witness_AngleSweepIsMonotone :
    ordered (defaultServo 0) = true ∧ (-1 : Int) ≤ 181 ∧ (0 : Int) ≤ 0 ∧ (180 : Int) ≤ 180 := by decide
theorem test_witness_SpeedSweepIsMonotone :
    ordered (defaultServo 0) = true ∧ (-100 : Int) ≤ -100 ∧ (-100 : Int) ≤ 100 ∧ (100 : Int) ≤ 100 := by decide
/-- The largest operands. -/
theorem test_witness_IntermediatesFitTheirStatedSizes :
    defaultParams.foDiv = 1000 ∧ (40 : Nat) ≤ 1000 ∧ (1000 : Nat) ≤ 1000 ∧
    65535 < 2 ^ 16 ∧
    ordered { pinNumber := 0, minOffset := 0, midOffset := 65535, maxOffset := 65535, position := .unset } = true ∧
    (0 : Int) ≤ 180 ∧ (180 : Int) ≤ 180 ∧ (-100 : Int) ≤ -100 ∧ (-100 : Int) ≤ 100 := by decide
theorem test_witness_DefaultCalibrationSaturates :
    running.slot 0x40 = some (defaultConfig 50) ∧ running.allSucceed 4 ∧ running.params.foDiv = 1000 ∧
    40 ≤ (defaultConfig 50).frequency ∧ (defaultConfig 50).frequency ≤ 1000 ∧
    ((defaultConfig 50).servo (channelIndex 16)).minOffset = 5 ∧ ((defaultConfig 50).servo (channelIndex 16)).midOffset = 15 ∧
    ((defaultConfig 50).servo (channelIndex 16)).maxOffset = 25 ∧ (180 : Int) ≤ 180 ∧ (defaultConfig 50).frequency = 50 ∧
    (135 : Int) ≤ 135 ∧ (100 : Int) ≤ 100 := by decide

theorem test_witness_OtherChipsAreUntouched :
    (∃ t, exec (.init 0x40 60) running = .next t) ∧ (0x41 : Byte) ≠ (Instr.init 0x40 60).address := ⟨⟨_, rfl⟩, by decide⟩
theorem test_witness_CommandsOnlyAppendToTheTrace : ∃ t, exec (.init 0x40 60) running = .next t := ⟨_, rfl⟩
theorem test_witness_ReadersLeaveARegisteredSlotAlone :
    running.slot 0x40 = some (defaultConfig 50) ∧ (∃ t, exec (.setPinPulseRange 0 0 1 0x40) running = .next t) ∧
    (∃ t, exec (.getChipConfig 0x40) running = .next t) ∧
    (∃ t, exec (.setServoLimits 1 2 6 none 0x40) running = .next t) := ⟨by decide, ⟨_, rfl⟩, ⟨_, rfl⟩, ⟨_, rfl⟩⟩
theorem test_witness_BringUpKeepsTheServoEntries :
    running.slot 0x40 = some (defaultConfig 50) ∧ (∃ t, exec (.init 0x40 60) running = .next t) ∧
    (∃ t, exec (.reset 0x40) (failing 3 running) = .next t) := ⟨by decide, ⟨_, rfl⟩, ⟨_, rfl⟩⟩
theorem test_witness_SetServoLimitsFrame :
    running.slot 0x40 = some (defaultConfig 50) ∧ (∃ t, exec (.setServoLimits 1 2 6 none 0x40) running = .next t) ∧
    (15 : Fin 16) ≠ channelIndex 1 := ⟨by decide, ⟨_, rfl⟩, by decide⟩
theorem test_witness_MotionFrame :
    running.slot 0x40 = some (defaultConfig 50) ∧ (∃ t, exec (.setStandardServoAngle 1 90 0x40) running = .next t) ∧
    (∃ t, exec (.setContinuousServoSpeed 1 90 0x40) (failing 1 running) = .next t) ∧ (15 : Fin 16) ≠ channelIndex 1 :=
  ⟨by decide, ⟨_, rfl⟩, ⟨_, rfl⟩, by decide⟩

/-- Another chip, and the registers next to the slot of pin 15 (0x42 to 0x45). -/
theorem test_witness_ChannelWritesTouchOnlyTheirSlot :
    running.slot 0x40 = some (defaultConfig 50) ∧ (∃ t, exec (.setPinPulseRange 99 0 1 0x40) running = .next t) ∧
    (0x41 : Byte) ≠ 0x40 ∧ (∀ r ∈ [(0x41 : Byte), 0x46], ∀ j < 4, r.toNat ≠ (slotBase (clampPin 99)).toNat + j) ∧
    (∃ t, exec (.setStandardServoAngle 16 90 0x40) running = .next t) ∧
    (∃ t, exec (.setContinuousServoSpeed 16 90 0x40) running = .next t) ∧
    (∀ r ∈ [(0x41 : Byte), 0x46], ∀ j < 4,
      r.toNat ≠ (slotBase ((defaultConfig 50).servo (channelIndex 16)).pinNumber.toNat).toNat + j) :=
  ⟨by decide, ⟨_, rfl⟩, by decide, by decide, ⟨_, rfl⟩, ⟨_, rfl⟩, by decide⟩
/-- Both ends of each range of registers. -/
theorem test_witness_UnwrittenRegistersKeepTheirImage :
    (∃ t, exec (.init 0x40 60) running = .next t) ∧ (0x41 : Byte) ≠ (Instr.init 0x40 60).address ∧
    (∀ r ∈ [(0x01 : Byte), 0x05, 0x46, 0xF9, 0xFF], (0x01 ≤ r.toNat ∧ r.toNat ≤ 0x05) ∨
      (0x46 ≤ r.toNat ∧ r.toNat ≤ 0xF9) ∨ r = 0xFF) := ⟨⟨_, rfl⟩, by decide, by decide⟩
theorem test_witness_BringUpZeroesEveryChannel :
    validAddress 0x40 = true ∧ running.allSucceed 8 ∧ (∃ t, exec (.init 0x40 60) running = .next t) ∧
    (∃ t, exec (.reset 0x40) running = .next t) ∧ blank.allSucceed 8 ∧ (∃ t, exec (.reset 0x40) blank = .next t) ∧
    (15 : Nat) < 16 ∧ (3 : Nat) < 4 :=
  ⟨by decide, by decide, ⟨_, rfl⟩, ⟨_, rfl⟩, by decide, ⟨_, rfl⟩, by decide, by decide⟩
/-- Two states that differ in chip 0x41, the trace and the responses. -/
theorem test_witness_ChipsDoNotInfluenceEachOther :
    running.slot 0x40 = { ran (.getChipConfig 0x41) running with answers := ok 12 }.slot 0x40 ∧
    running.params = { ran (.getChipConfig 0x41) running with answers := ok 12 }.params ∧
    running.answers = { ran (.getChipConfig 0x41) running with answers := ok 12 }.answers ∧
    running.fresh = { ran (.getChipConfig 0x41) running with answers := ok 12 }.fresh ∧
    running.slot 0x41 ≠ { ran (.getChipConfig 0x41) running with answers := ok 12 }.slot 0x41 ∧
    (∃ t, exec (.init 0x40 60) running = .next t) ∧
    (∃ t, exec (.init 0x40 60) { ran (.getChipConfig 0x41) running with answers := ok 12 } = .next t) :=
  ⟨by decide, by decide, by decide, by decide, by decide, ⟨_, rfl⟩, ⟨_, rfl⟩⟩

end Sys2Proof.Tests
end

section
/-! Command words read back, one step, reset, and what a command leaves alone: the statements of spec/00_scope.md. -/

/-! ## The decoder on a packed word (spec/30_encoding.md R50, R51, R53) -/

namespace Sys2Proof

/-- A signed operand that fits its field is read back from its two's-complement pattern (R51, R57). -/
theorem sext_signedPattern {operandW : Nat} {x : Int} (h : fitsSigned operandW x = true) :
    sext (signedPattern operandW x) = x := by
  simp only [fitsSigned, Bool.and_eq_true, decide_eq_true_eq] at h
  obtain ⟨hlo, hhi⟩ := h
  rw [sext, signedPattern, BitVec.toInt_ofInt]
  exact Int.bmod_eq_of_le_mul_two (by push_cast; omega) (by push_cast; omega)

/-- An unsigned operand that fits its field is read back from its pattern (R51, R57). -/
theorem zext_unsignedPattern {operandW n : Nat} (h : fitsUnsigned operandW n = true) :
    zext (unsignedPattern operandW n) = n :=
  (BitVec.toNat_ofNat n operandW).trans (Nat.mod_eq_of_lt (of_decide_eq_true h))

/-- `m` and `d` together give back an optional middle offset (R53, R55). -/
theorem optionalMid_midFlag {operandW : Nat} {md : Option Nat} (h : md.all (fitsUnsigned operandW) = true) :
    optionalMid (midFlag md) (unsignedPattern operandW (md.getD 0)) = md := by
  cases md with
  | none => rfl
  | some n => exact congrArg some (zext_unsignedPattern h)

/-- The decoder inverts the encoder on every command that has a word. -/
theorem decode_encode {operandW : Nat} {i : Instr} (h : i.wellFormed operandW = true) :
    decode operandW (encode operandW i) = .ok i := by
  cases i with
  | init address frequency =>
    simp [encode, decode, Instr.opcode, fields_packFields, sext_signedPattern h]
  | reset address => simp [encode, decode, Instr.opcode, fields_packFields]
  | setPinPulseRange pin onStep offStep address =>
    simp only [Instr.wellFormed, Bool.and_eq_true] at h
    obtain ⟨⟨hpin, hon⟩, hoff⟩ := h
    simp [encode, decode, Instr.opcode, fields_packFields, sext_signedPattern hpin, sext_signedPattern hon,
      sext_signedPattern hoff]
  | setStandardServoAngle channel angle address =>
    simp only [Instr.wellFormed, Bool.and_eq_true] at h
    obtain ⟨hch, hx⟩ := h
    simp [encode, decode, Instr.opcode, fields_packFields, sext_signedPattern hch, sext_signedPattern hx]
  | setContinuousServoSpeed channel speed address =>
    simp only [Instr.wellFormed, Bool.and_eq_true] at h
    obtain ⟨hch, hx⟩ := h
    simp [encode, decode, Instr.opcode, fields_packFields, sext_signedPattern hch, sext_signedPattern hx]
  | setServoLimits channel minOffset maxOffset midOffset address =>
    simp only [Instr.wellFormed, Bool.and_eq_true] at h
    obtain ⟨⟨⟨hch, hmin⟩, hmax⟩, hmid⟩ := h
    simp [encode, decode, Instr.opcode, fields_packFields, sext_signedPattern hch, zext_unsignedPattern hmin,
      zext_unsignedPattern hmax, optionalMid_midFlag hmid]
  | getChipConfig address => simp [encode, decode, Instr.opcode, fields_packFields]

/-- Settles O1: each operand is read back from the field the encoder put it in. -/
theorem decodeOfEncodeIsTheCommand : Obligations.DecodeOfEncodeIsTheCommand :=
  fun _ _ h => decode_encode h

end Sys2Proof

namespace Sys2Proof.Machine

/-! ## One step (spec/00_scope.md R9) -/

/-- Valid parameters have a command port as wide as the command word (R50). -/
theorem cmdW_of_valid {p : Params} (h : p.valid = true) : p.cmdW = 16 + 4 * p.operandW := by
  simp only [Params.valid, Bool.and_eq_true, decide_eq_true_eq] at h
  exact h.2

/-- A step runs the command that the next word decodes to (R9). -/
theorem step_of_decode {s : State} {w : Nat} {rest : List Nat} {i : Instr} (hc : s.commands = w :: rest)
    (hd : decode s.params.operandW (portWord s.params w) = .ok i) : step s = exec i { s with commands := rest } := by
  simp only [step, fetch, hc, hd]

/-- Settles O7: the port hands over the whole word of a command, which decodes to that command. -/
theorem stepRunsTheDecodedCommand : Obligations.StepRunsTheDecodedCommand := by
  refine ⟨fun s w rest i hc hd => step_of_decode hc hd, fun s rest i hv hw hc => step_of_decode hc ?_⟩
  rw [portWord_toNat (cmdW_of_valid hv), decode_encode hw]

/-- Settles O9: the shape all commands share ends in a next state. -/
theorem everyCommandEndsInANextState : Obligations.EveryCommandEndsInANextState :=
  fun i s => ⟨_, exec_eq i s⟩

/-! ## Reset (spec/10_state.md R25) -/

/-- No slot is registered at reset (R25). -/
@[simp] theorem reset_slot (a : Byte) : State.reset.slot a = none := by
  unfold State.slot
  split
  · next hv => simp [State.reset, slotIndex_lt hv]
  · rfl

/-- Settles O14: at reset no slot is registered and the trace is empty. -/
theorem resetMeetsTheInvariants : Obligations.ResetMeetsTheInvariants := by
  refine ⟨⟨by decide, rfl, fun a c h => ?_⟩, fun e he => ?_, fun before after a v ans h => ?_⟩
  · simp at h
  · cases he
  · cases before <;> cases h

/-! ## Where a procedure leaves the state -/

/-- The state a procedure ends in, whether it is done or has raised, has property `P`. -/
def Run.Ends {α : Type} (P : State → Prop) : Run α → Prop
  | .done _ s => P s
  | .raised _ s => P s

@[simp] theorem ends_done {α : Type} (P : State → Prop) (v : α) (s : State) : (Run.done v s).Ends P ↔ P s := Iff.rfl

@[simp] theorem ends_raised {α : Type} (P : State → Prop) (k : ErrorKind) (s : State) :
    (Run.raised k s : Run α).Ends P ↔ P s := Iff.rfl

/-- A property that the first procedure ends with and the next one keeps holds at the end of both. -/
theorem ends_andThen {α β : Type} {P : State → Prop} {r : Run α} {next : α → State → Run β} (hr : r.Ends P)
    (hnext : ∀ v s, P s → (next v s).Ends P) : (r.andThen next).Ends P := by
  cases r with
  | done v s => exact hnext v s hr
  | raised k s => exact hr

/-- A property that the response and the taking of an error keep holds of the state the command ends in. -/
theorem finish_of_ends {P : State → Prop} {r : Run Response} (hr : r.Ends P)
    (hrespond : ∀ s v, P s → P (s.respond v)) (herror : ∀ s k, P s → P (s.takeError k)) : P r.finish := by
  cases r with
  | done v s => exact hrespond s v hr
  | raised k s => exact herror s k hr

/-! ## Events at one bus address (spec/20_memory.md R42) -/

/-- Every write among the events is at bus address `a`. -/
def EventsAt (a : Byte) (events : List BusEvent) : Prop :=
  ∀ e ∈ events, ∀ b r v ans, e = .write b r v ans → b = a

@[simp] theorem eventsAt_nil (a : Byte) : EventsAt a [] := nofun

@[simp] theorem eventsAt_write_cons (a b r v : Byte) (ans : BusAnswer) (events : List BusEvent) :
    EventsAt a (.write b r v ans :: events) ↔ b = a ∧ EventsAt a events :=
  List.forall_mem_cons.trans (and_congr_left' ⟨fun h => h b r v ans rfl, fun h _ _ _ _ e => by cases e; exact h⟩)

@[simp] theorem eventsAt_delay_cons (a : Byte) (n : Nat) (events : List BusEvent) :
    EventsAt a (.delay n :: events) ↔ EventsAt a events := by
  simp [EventsAt]

theorem eventsAt_append {a : Byte} {first second : List BusEvent} :
    EventsAt a (first ++ second) ↔ EventsAt a first ∧ EventsAt a second :=
  List.forall_mem_append

theorem eventsAt_initEvents (p : Params) (a : Byte) (f : Nat) : EventsAt a (initEvents p a f) := by
  simp [initEvents]

theorem eventsAt_channelEvents (a slot : Byte) (on off : Count) : EventsAt a (channelEvents a slot on off) := by
  simp [channelEvents]

/-- An event list cut short at a failing write stays at its address. -/
theorem eventsAt_cutTrace {a : Byte} {events : List BusEvent} (i : Nat) (h : EventsAt a events) :
    EventsAt a (cutTrace i events) := by
  induction events generalizing i with
  | nil => exact h
  | cons e rest ih =>
    cases e with
    | delay n => simpa [cutTrace] using ih i (by simpa using h)
    | write b r v ans =>
      obtain ⟨hb, hrest⟩ := (eventsAt_write_cons ..).1 h
      cases i with
      | zero => simpa [cutTrace] using hb
      | succ i => simpa [cutTrace] using ⟨hb, ih i hrest⟩

/-! ## What a command leaves alone (spec/00_scope.md R6, spec/20_memory.md R42) -/

@[simp] theorem useAnswers_answers (s : State) (n : Nat) : (s.useAnswers n).answers = s.answers.drop n := by
  induction n generalizing s with
  | zero => rfl
  | succ n ih =>
    rw [State.useAnswers, ih, ← List.drop_drop]
    cases h : s.answers <;> simp [State.dropAnswer, h]

/-- From `s` to `t` parameters and waiting commands are kept, answers are taken from the front, and the trace is only
extended, by events at bus address `a`. -/
structure AppendsAt (a : Byte) (s t : State) : Prop where
  params : t.params = s.params
  commands : t.commands = s.commands
  answers : ∃ n, t.answers = s.answers.drop n
  trace : ∃ events, t.trace = s.trace ++ events ∧ EventsAt a events

/-- An update of other fields appends no event. -/
theorem AppendsAt.of_eq {a : Byte} {s t : State} (hp : t.params = s.params) (hc : t.commands = s.commands)
    (ha : t.answers = s.answers) (ht : t.trace = s.trace) : AppendsAt a s t :=
  ⟨hp, hc, ⟨0, ha⟩, [], by simpa using ht, eventsAt_nil a⟩

theorem AppendsAt.refl (a : Byte) (s : State) : AppendsAt a s s := .of_eq rfl rfl rfl rfl

theorem AppendsAt.trans {a : Byte} {s t u : State} (h : AppendsAt a s t) (h' : AppendsAt a t u) : AppendsAt a s u := by
  obtain ⟨hp, hc, ⟨n, hn⟩, events, ht, he⟩ := h
  obtain ⟨hp', hc', ⟨n', hn'⟩, events', ht', he'⟩ := h'
  refine ⟨hp'.trans hp, hc'.trans hc, ⟨n + n', ?_⟩, events ++ events', ?_, eventsAt_append.2 ⟨he, he'⟩⟩
  · rw [hn', hn, List.drop_drop]
  · rw [ht', ht, List.append_assoc]

/-- What a procedure appends from `t` on, it appends from `s` on when `t` appends to `s`. -/
theorem AppendsAt.ends_of_ends {α : Type} {a : Byte} {s t : State} {r : Run α} (h : AppendsAt a s t)
    (hr : r.Ends (AppendsAt a t)) : r.Ends (AppendsAt a s) := by
  cases r with
  | done v u => exact h.trans hr
  | raised k u => exact h.trans hr

theorem lookupOrCreate_appendsAt (a : Byte) (f : Int) (s : State) : (lookupOrCreate a f s).Ends (AppendsAt a s) := by
  obtain ⟨-, h⟩ | ⟨c, -, h⟩ | ⟨-, -, -, h⟩ | ⟨i, -, -, -, -, h⟩ := lookupOrCreate_cases a f s <;> rw [h]
  · exact .refl a s
  · exact .refl a s
  · exact ⟨by simp [State.created], by simp [State.created], ⟨8, by simp [State.created]⟩, _, rfl,
      eventsAt_initEvents _ a _⟩
  · exact ⟨by simp, by simp, ⟨i + 1, by simp⟩, _, rfl, eventsAt_cutTrace i (eventsAt_initEvents _ a _)⟩

theorem bringUp_appendsAt (a : Byte) (c : ChipConfig) (s : State) : (bringUp a c s).Ends (AppendsAt a s) := by
  obtain ⟨-, h⟩ | ⟨i, -, -, h⟩ := bringUp_cases a c s <;> rw [h]
  · exact ⟨by simp, by simp, ⟨8, by simp⟩, _, rfl, eventsAt_initEvents _ a _⟩
  · exact ⟨by simp, by simp, ⟨i + 1, by simp⟩, _, rfl, eventsAt_cutTrace i (eventsAt_initEvents _ a _)⟩

theorem writeChannel_appendsAt (a : Byte) (p on off : Int) (s : State) :
    (writeChannel a p on off s).Ends (AppendsAt a s) := by
  obtain ⟨-, h⟩ | ⟨i, -, -, h⟩ := writeChannel_cases a p on off s <;> rw [h]
  · exact ⟨by simp, by simp, ⟨4, by simp⟩, _, rfl, eventsAt_channelEvents a _ _ _⟩
  · exact ⟨by simp, by simp, ⟨i + 1, by simp⟩, _, rfl, eventsAt_cutTrace i (eventsAt_channelEvents a _ _ _)⟩

theorem moveServo_appendsAt (a : Byte) (c : ChipConfig) (k : Fin 16) (pos : Position) (pwm : Int) (s : State) :
    (moveServo a c k pos pwm s).Ends (AppendsAt a s) := by
  obtain ⟨-, h⟩ | ⟨i, -, -, h⟩ := moveServo_cases a c k pos pwm s <;> rw [h]
  · exact ⟨by simp, by simp, ⟨4, by simp⟩, _, rfl, eventsAt_channelEvents a _ _ _⟩
  · exact ⟨by simp, by simp, ⟨i + 1, by simp⟩, _, rfl, eventsAt_cutTrace i (eventsAt_channelEvents a _ _ _)⟩

theorem bodyOf_appendsAt (i : Instr) (found : Lookup) (s : State) :
    (bodyOf i found s).Ends (AppendsAt i.address s) := by
  cases i with
  | init a f =>
    simp only [bodyOf]
    split
    · exact .refl a s
    · exact bringUp_appendsAt ..
  | reset a =>
    simp only [bodyOf]
    split
    · exact .refl a s
    · exact bringUp_appendsAt ..
  | setPinPulseRange pin on off a => exact ends_andThen (writeChannel_appendsAt a pin on off s) fun _ _ h => h
  | setStandardServoAngle ch x a =>
    simp only [bodyOf]
    split
    · exact moveServo_appendsAt ..
    · exact AppendsAt.ends_of_ends (t := s.dropDraw) (.of_eq rfl rfl rfl rfl) (moveServo_appendsAt ..)
  | setContinuousServoSpeed ch x a =>
    simp only [bodyOf]
    split
    · exact moveServo_appendsAt ..
    · exact AppendsAt.ends_of_ends (t := s.dropDraw) (.of_eq rfl rfl rfl rfl) (moveServo_appendsAt ..)
  | setServoLimits ch mn mx md a => exact .of_eq (by simp) (by simp) (by simp) (by simp)
  | getChipConfig a => exact .refl a s

/-- The state a command ends in, completed or failed. -/
theorem exec_appendsAt {i : Instr} {s t : State} (h : exec i s = .next t) : AppendsAt i.address s t := by
  rw [exec_eq, Host.Outcome.next.injEq] at h
  subst h
  have hend : ((lookupOrCreate i.address (lookupFrequency i) s).andThen (bodyOf i)).Ends (AppendsAt i.address s) :=
    ends_andThen (lookupOrCreate_appendsAt ..) fun found s' hs => hs.ends_of_ends (bodyOf_appendsAt i found s')
  exact finish_of_ends hend (fun _ _ hu => hu.trans (.of_eq rfl rfl rfl rfl))
    (fun _ _ hu => hu.trans (.of_eq rfl rfl rfl rfl))

/-- Settles O49: lookup-or-create and the command's own body each only take answers and append events. -/
theorem commandsOnlyAppendToTheTrace : Obligations.CommandsOnlyAppendToTheTrace := by
  intro i s t h
  obtain ⟨hparams, hcommands, hanswers, htrace⟩ := exec_appendsAt h
  exact ⟨hparams, hcommands, hanswers, htrace⟩

end Sys2Proof.Machine
end

section
/-! What a command stores in the registry table, the invariant of the state, and the independence of the chips: the
statements of spec/10_state.md. -/

namespace Sys2Proof

/-! ## Decoded operands fit their fields (spec/30_encoding.md R51, R53) -/

theorem fitsSigned_sext {operandW : Nat} (v : Operand operandW) : fitsSigned operandW (sext v) = true := by
  simp only [fitsSigned, Bool.and_eq_true, decide_eq_true_eq]
  exact ⟨BitVec.le_two_mul_toInt, BitVec.two_mul_toInt_lt⟩

theorem fitsUnsigned_zext {operandW : Nat} (v : Operand operandW) : fitsUnsigned operandW (zext v) = true :=
  decide_eq_true v.isLt

theorem all_fitsUnsigned_optionalMid {operandW : Nat} (m : BitVec 1) (d : Operand operandW) :
    (optionalMid m d).all (fitsUnsigned operandW) = true := by
  unfold optionalMid
  split
  · exact fitsUnsigned_zext d
  · rfl

/-- What the decoder reads has its operands in the ranges of their fields. -/
theorem wellFormed_of_decode {operandW : Nat} {w : CmdWord operandW} {i : Instr} (h : decode operandW w = .ok i) :
    i.wellFormed operandW = true := by
  unfold decode at h
  split at h <;> cases h <;>
    simp [Instr.wellFormed, fitsSigned_sext, fitsUnsigned_zext, all_fitsUnsigned_optionalMid]

end Sys2Proof

namespace Sys2Proof.Machine

/-! ## Reset (spec/10_state.md R25) -/

/-- Settles O13: no slot is registered at reset, so no slot has another phase. -/
theorem resetLeavesEverySlotUnregistered : Obligations.ResetLeavesEverySlotUnregistered :=
  ⟨fun a => ⟨reset_slot a, by simp [State.phase]⟩, rfl, rfl, rfl⟩

/-! ## What a command stores in the table (spec/10_state.md R12, R20) -/

/-- Where a procedure ends with a stronger property, it ends with a weaker one. -/
theorem ends_imp {α : Type} {P Q : State → Prop} {r : Run α} (hr : r.Ends P) (h : ∀ s, P s → Q s) : r.Ends Q := by
  cases r with
  | done v s => exact h s hr
  | raised k s => exact h s hr

/-- Writing a slot reads nothing of the state but the table. -/
theorem setSlot_cfg_congr {s t : State} (h : s.cfg = t.cfg) (a : Byte) (c : ChipConfig) :
    (s.setSlot a c).cfg = (t.setSlot a c).cfg := by
  unfold State.setSlot
  split <;> simp [h]

/-- From `s` to `t` the table is kept but for slot `a`, which may have been given a content that meets `Q`, and `seq` is
kept or returned to 0. -/
structure StoresAt (a : Byte) (Q : ChipConfig → Prop) (s t : State) : Prop where
  seq : t.seq = s.seq ∨ t.seq = 0
  cfg : t.cfg = s.cfg ∨ ∃ c, Q c ∧ t.cfg = (s.setSlot a c).cfg

section
variable {a : Byte} {Q Q' : ChipConfig → Prop} {s t u : State}

/-- An update of fields other than the table stores nothing. -/
theorem StoresAt.of_cfg_eq (hq : t.seq = s.seq ∨ t.seq = 0) (hc : t.cfg = s.cfg) : StoresAt a Q s t := ⟨hq, .inl hc⟩

theorem StoresAt.refl : StoresAt a Q s s := .of_cfg_eq (.inl rfl) rfl

theorem StoresAt.mono (h : StoresAt a Q s t) (hQ : ∀ c, Q c → Q' c) : StoresAt a Q' s t := by
  obtain ⟨hseq, hcfg⟩ := h
  exact ⟨hseq, hcfg.imp_right fun ⟨c, hc, e⟩ => ⟨c, hQ c hc, e⟩⟩

/-- Of two stores in a row the second one stays. -/
theorem StoresAt.trans (h : StoresAt a Q s t) (h' : StoresAt a Q t u) : StoresAt a Q s u := by
  obtain ⟨hseq, hcfg⟩ := h
  obtain ⟨hseq', hcfg'⟩ := h'
  refine ⟨hseq'.elim (fun e => e ▸ hseq) .inr, ?_⟩
  obtain e' | ⟨c', hc', e'⟩ := hcfg'
  · exact e' ▸ hcfg
  · refine .inr ⟨c', hc', e'.trans ?_⟩
    obtain e | ⟨c, -, e⟩ := hcfg
    · exact setSlot_cfg_congr e a c'
    · rw [setSlot_cfg_congr e a c', setSlot_setSlot]

end

/-- What a command may store in its own slot of content `c`: `init` the frequency and a phase (R124), `reset` a phase
(R125), a motion command a position (R105, R106), `setServoLimits` the three bounds (R92), the others nothing new. -/
def StoredBy (i : Instr) (c c' : ChipConfig) : Prop :=
  match i with
  | .init _ f => ∃ phase, c' = { c with frequency := clampFrequency f, phase := phase }
  | .reset _ => ∃ phase, c' = { c with phase := phase }
  | .setStandardServoAngle ch x _ => c' = c.setServo (channelIndex ch)
      { c.servo (channelIndex ch) with position := .standard (clampAngle x) }
  | .setContinuousServoSpeed ch x _ => c' = c.setServo (channelIndex ch)
      { c.servo (channelIndex ch) with position := .continuous (clampSpeed x) }
  | .setServoLimits ch mn mx md _ => c' = c.setServo (channelIndex ch) (setOffsets (c.servo (channelIndex ch)) mn mx md)
  | _ => c' = c

/-- The content lookup-or-create hands to a command: that of its slot, or the one it creates the slot with (R81). -/
def State.contentFor (s : State) (i : Instr) : ChipConfig := (s.slot i.address).getD (defaultConfig i.creationFrequency)

/-- What a command run in `s` may leave in its own slot: the content it was handed, or what it makes of it. -/
def LeftBy (i : Instr) (s : State) (c : ChipConfig) : Prop := c = s.contentFor i ∨ StoredBy i (s.contentFor i) c

theorem bringUp_storesAt (a : Byte) (c : ChipConfig) (s : State) :
    (bringUp a c s).Ends (StoresAt a (fun c' => ∃ phase, c' = { c with phase := phase }) s) := by
  obtain ⟨-, h⟩ | ⟨i, -, -, h⟩ := bringUp_cases a c s <;> rw [h]
  · exact ⟨.inr rfl, .inr ⟨_, ⟨.running, rfl⟩, setSlot_cfg_congr (by simp) a _⟩⟩
  · exact ⟨.inr rfl, .inr ⟨_, ⟨.initializing, rfl⟩, setSlot_cfg_congr (by simp) a _⟩⟩

theorem writeChannel_storesAt (a : Byte) (Q : ChipConfig → Prop) (p on off : Int) (s : State) :
    (writeChannel a p on off s).Ends (StoresAt a Q s) := by
  obtain ⟨-, h⟩ | ⟨i, -, -, h⟩ := writeChannel_cases a p on off s <;> rw [h]
  · exact .of_cfg_eq (.inl (by simp)) (by simp)
  · exact .of_cfg_eq (.inl (by simp)) (by simp)

theorem moveServo_storesAt (a : Byte) (c : ChipConfig) (k : Fin 16) (pos : Position) (pwm : Int) (s : State) :
    (moveServo a c k pos pwm s).Ends (StoresAt a (· = c.setServo k { c.servo k with position := pos }) s) := by
  obtain ⟨-, h⟩ | ⟨i, -, -, h⟩ := moveServo_cases a c k pos pwm s <;> rw [h]
  · exact ⟨.inl (by simp), .inr ⟨_, rfl, setSlot_cfg_congr (by simp) a _⟩⟩
  · exact ⟨.inl (by simp), .inr ⟨_, rfl, setSlot_cfg_congr (by simp) a _⟩⟩

theorem bodyOf_storesAt (i : Instr) (found : Lookup) (s : State) :
    (bodyOf i found s).Ends (StoresAt i.address (StoredBy i found.config) s) := by
  have hdraw {a : Byte} {Q : ChipConfig → Prop} : StoresAt a Q s s.dropDraw := .of_cfg_eq (.inl rfl) rfl
  cases i with
  | init a f =>
    simp only [bodyOf]
    split
    · exact .refl
    · exact bringUp_storesAt ..
  | reset a =>
    simp only [bodyOf]
    split
    · exact .refl
    · exact bringUp_storesAt ..
  | setPinPulseRange pin on off a => exact ends_andThen (writeChannel_storesAt a _ pin on off s) fun _ _ h => h
  | setStandardServoAngle ch x a =>
    simp only [bodyOf]
    split
    · exact moveServo_storesAt ..
    · exact ends_imp (moveServo_storesAt ..) fun _ h => hdraw.trans h
  | setContinuousServoSpeed ch x a =>
    simp only [bodyOf]
    split
    · exact moveServo_storesAt ..
    · exact ends_imp (moveServo_storesAt ..) fun _ h => hdraw.trans h
  | setServoLimits ch mn mx md a => exact ⟨.inl (by simp), .inr ⟨_, rfl, rfl⟩⟩
  | getChipConfig a => exact .refl

/-- Lookup-or-create and then the command's own body store in the command's slot alone. -/
theorem lookupOrCreate_andThen_bodyOf_storesAt (i : Instr) (s : State) :
    ((lookupOrCreate i.address (lookupFrequency i) s).andThen (bodyOf i)).Ends
      (StoresAt i.address (LeftBy i s) s) := by
  obtain ⟨-, h⟩ | ⟨c, hc, h⟩ | ⟨-, hc, -, h⟩ | ⟨j, -, -, -, -, h⟩ :=
    lookupOrCreate_cases i.address (lookupFrequency i) s <;> rw [h]
  · exact .refl
  · have hfound : s.contentFor i = c := by simp [State.contentFor, hc]
    exact ends_imp (bodyOf_storesAt i _ s) fun _ hu => hu.mono fun _ hQ => .inr (hfound ▸ hQ)
  · have hfound : s.contentFor i = defaultConfig (clampFrequency (lookupFrequency i)) := by
      simp [State.contentFor, hc, clampFrequency_lookupFrequency]
    have hcreated : StoresAt i.address (LeftBy i s) s (s.created i.address (clampFrequency (lookupFrequency i))) :=
      ⟨.inr rfl, .inr ⟨_, .inl hfound.symm, setSlot_cfg_congr (by simp) i.address _⟩⟩
    exact ends_imp (bodyOf_storesAt i _ _) fun _ hu => hcreated.trans (hu.mono fun _ hQ => .inr (hfound ▸ hQ))
  · exact .of_cfg_eq (.inr rfl) (by simp)

/-- The state a command ends in, completed or failed. -/
theorem exec_storesAt {i : Instr} {s t : State} (h : exec i s = .next t) : StoresAt i.address (LeftBy i s) s t := by
  rw [exec_eq, Host.Outcome.next.injEq] at h
  subst h
  exact finish_of_ends (lookupOrCreate_andThen_bodyOf_storesAt i s) (fun _ _ hu => hu.trans (.of_cfg_eq (.inl rfl) rfl))
    (fun _ _ hu => hu.trans (.of_cfg_eq (.inr rfl) rfl))

/-- Settles O48: the one store of a command is at its own address. -/
theorem otherChipsAreUntouched : Obligations.OtherChipsAreUntouched := by
  intro i s t b h hb
  obtain e | ⟨c, -, e⟩ := (exec_storesAt h).cfg
  · exact slot_congr e b
  · exact (slot_congr e b).trans (setSlot_slot_other s c hb)

/-! ## The ranges of the stored values (spec/10_state.md R13, R15, R16, R17) -/

theorem clamp_mem (x : Int) {lo hi : Int} (h : lo ≤ hi) : lo ≤ clamp x lo hi ∧ clamp x lo hi ≤ hi := by
  unfold clamp
  split
  · omega
  · split <;> omega

theorem clampFrequency_mem (f : Int) : 40 ≤ clampFrequency f ∧ clampFrequency f ≤ 1000 := by
  have := clamp_mem f (show (40 : Int) ≤ 1000 by decide)
  unfold clampFrequency
  omega

theorem creationFrequency_mem (i : Instr) : 40 ≤ i.creationFrequency ∧ i.creationFrequency ≤ 1000 :=
  clampFrequency_lookupFrequency i ▸ clampFrequency_mem (lookupFrequency i)

theorem inRange_standard_clampAngle (x : Int) : (Position.standard (clampAngle x)).inRange = true := by
  simp only [Position.inRange, Bool.and_eq_true, decide_eq_true_eq]
  exact clamp_mem x (show (0 : Int) ≤ 180 by decide)

theorem inRange_continuous_clampSpeed (x : Int) : (Position.continuous (clampSpeed x)).inRange = true := by
  simp only [Position.inRange, Bool.and_eq_true, decide_eq_true_eq]
  exact clamp_mem x (show (-100 : Int) ≤ 100 by decide)

/-- The midpoint of two bounds that fit a field fits it (R91). -/
theorem midpointOffset_toNat_lt {operandW mn mx : Nat} (hmn : mn < 2 ^ operandW) (hmx : mx < 2 ^ operandW) :
    (midpointOffset mn mx).toNat < 2 ^ operandW := by
  unfold midpointOffset fdiv
  rw [Int.fdiv_eq_ediv_of_nonneg _ (by decide)]
  omega

/-- Entry `k` of a slot as R15, R16 and R17 bound it: what `ChipConfig.good` says of each entry. -/
def ServoConfig.good (operandW : Nat) (k : Fin 16) (sv : ServoConfig) : Prop :=
  sv.pinNumber = BitVec.ofNat 4 k.val ∧ sv.minOffset < 2 ^ operandW ∧ sv.midOffset < 2 ^ operandW ∧
    sv.maxOffset < 2 ^ operandW ∧ sv.position.inRange = true

theorem good_iff {operandW : Nat} {c : ChipConfig} :
    c.good operandW ↔ (40 ≤ c.frequency ∧ c.frequency ≤ 1000) ∧ ∀ k, (c.servo k).good operandW k :=
  and_assoc.symm

theorem ServoConfig.good.withPosition {operandW : Nat} {k : Fin 16} {sv : ServoConfig} {pos : Position}
    (h : sv.good operandW k) (hpos : pos.inRange = true) :
    ({ sv with position := pos } : ServoConfig).good operandW k := by
  obtain ⟨hpin, hmin, hmid, hmax, -⟩ := h
  exact ⟨hpin, hmin, hmid, hmax, hpos⟩

theorem ServoConfig.good.setOffsets {operandW : Nat} {k : Fin 16} {sv : ServoConfig} {mn mx : Nat} {md : Option Nat}
    (h : sv.good operandW k) (hmn : mn < 2 ^ operandW) (hmx : mx < 2 ^ operandW) (hmd : ∀ n ∈ md, n < 2 ^ operandW) :
    (Machine.setOffsets sv mn mx md).good operandW k := by
  obtain ⟨hpin, -, -, -, hpos⟩ := h
  refine ⟨hpin, hmn, ?_, hmx, hpos⟩
  cases md with
  | none => exact midpointOffset_toNat_lt hmn hmx
  | some n => exact hmd n rfl

theorem good_setServo {operandW : Nat} {c : ChipConfig} {k : Fin 16} {sv : ServoConfig} (hc : c.good operandW)
    (hsv : sv.good operandW k) : (c.setServo k sv).good operandW := by
  obtain ⟨hf, hservo⟩ := good_iff.1 hc
  refine good_iff.2 ⟨hf, fun j => ?_⟩
  by_cases hj : j = k
  · subst hj
    simpa using hsv
  · rw [setServo_servo_other c sv hj]
    exact hservo j

/-- Fields of at least five bits hold the default offsets 5, 15 and 25 (R82). -/
theorem good_defaultConfig {operandW f : Nat} (hw : 5 ≤ operandW) (hf : 40 ≤ f ∧ f ≤ 1000) :
    (defaultConfig f).good operandW := by
  have h25 : 25 < 2 ^ operandW := Nat.lt_of_lt_of_le (by decide) (Nat.pow_le_pow_right (by decide : 0 < 2) hw)
  refine good_iff.2 ⟨hf, fun k => ?_⟩
  rw [defaultConfig_servo]
  exact ⟨rfl, Nat.lt_trans (show 5 < 25 by decide) h25, Nat.lt_trans (show 15 < 25 by decide) h25, h25, rfl⟩

/-- A command whose operands fit their fields makes a content in range of one in range. -/
theorem StoredBy.good {operandW : Nat} {i : Instr} {c c' : ChipConfig} (h : StoredBy i c c') (hc : c.good operandW)
    (hi : i.wellFormed operandW = true) : c'.good operandW := by
  obtain ⟨hf, hservo⟩ := good_iff.1 hc
  cases i with
  | init a f =>
    obtain ⟨phase, rfl⟩ := h
    exact good_iff.2 ⟨clampFrequency_mem f, hservo⟩
  | reset a =>
    obtain ⟨phase, rfl⟩ := h
    exact good_iff.2 ⟨hf, hservo⟩
  | setPinPulseRange pin on off a =>
    cases h
    exact hc
  | setStandardServoAngle ch x a =>
    cases h
    exact good_setServo hc ((hservo _).withPosition (inRange_standard_clampAngle x))
  | setContinuousServoSpeed ch x a =>
    cases h
    exact good_setServo hc ((hservo _).withPosition (inRange_continuous_clampSpeed x))
  | setServoLimits ch mn mx md a =>
    simp only [Instr.wellFormed, fitsUnsigned, Bool.and_eq_true, decide_eq_true_eq, Option.all_eq_true] at hi
    obtain ⟨⟨⟨-, hmn⟩, hmx⟩, hmd⟩ := hi
    cases h
    exact good_setServo hc ((hservo _).setOffsets hmn hmx hmd)
  | getChipConfig a =>
    cases h
    exact hc

/-! ## The invariant of the state (spec/10_state.md R18) -/

theorem operandW_of_valid {p : Params} (h : p.valid = true) : 5 ≤ p.operandW := by
  simp only [Params.valid, Bool.and_eq_true, decide_eq_true_eq] at h
  exact h.1.2

/-- What a slot holds after a write of some slot was written or was there before. -/
theorem slot_setSlot_cases {s : State} {a b : Byte} {c d : ChipConfig} (h : (s.setSlot a c).slot b = some d) :
    d = c ∨ s.slot b = some d := by
  by_cases hb : b = a
  · subst hb
    rw [setSlot_slot_same c (validAddress_of_slot h), Option.some.injEq] at h
    exact .inl h.symm
  · exact .inr (setSlot_slot_other s c hb ▸ h)

/-- The invariant is kept when the parameters are and slot `a` gets at most a content in range. -/
theorem State.Inv.of_storesAt {a : Byte} {s t : State} (hs : s.Inv) (hp : t.params = s.params)
    (h : StoresAt a (·.good s.params.operandW) s t) : t.Inv := by
  obtain ⟨hseq, hcfg⟩ := h
  refine ⟨hp ▸ hs.params, hseq.elim (·.trans hs.seq) id, fun b d hd => ?_⟩
  rw [hp]
  obtain e | ⟨c, hc, e⟩ := hcfg
  · exact hs.slots b d (slot_congr e b ▸ hd)
  · obtain rfl | hold := slot_setSlot_cases (slot_congr e b ▸ hd)
    · exact hc
    · exact hs.slots b d hold

theorem State.Inv.good_contentFor {s : State} (hs : s.Inv) (i : Instr) : (s.contentFor i).good s.params.operandW := by
  unfold State.contentFor
  cases hc : s.slot i.address with
  | none => exact good_defaultConfig (operandW_of_valid hs.params) (creationFrequency_mem i)
  | some c => exact hs.slots i.address c hc

/-- A command whose operands fit their fields keeps the invariant. -/
theorem exec_inv {i : Instr} {s t : State} (hs : s.Inv) (hi : i.wellFormed s.params.operandW = true)
    (h : exec i s = .next t) : t.Inv := by
  have hgood := hs.good_contentFor i
  refine hs.of_storesAt (exec_appendsAt h).params ((exec_storesAt h).mono fun c hc => ?_)
  obtain rfl | hstored := hc
  · exact hgood
  · exact hstored.good hgood hi

/-- Settles O15: a step runs a decoded command, whose operands fit their fields, or takes an error, or waits. -/
theorem stepKeepsTheStateInvariant : Obligations.StepKeepsTheStateInvariant := by
  intro s t hs h
  obtain rfl | ⟨w, rest, -, hword⟩ := step_cases h
  · exact hs
  · have htaken : ({ s with commands := rest } : State).Inv := ⟨hs.params, hs.seq, hs.slots⟩
    obtain ⟨i, hd, hexec⟩ | ⟨-, rfl⟩ := hword
    · exact exec_inv htaken (wellFormed_of_decode hd) hexec
    · exact ⟨htaken.params, rfl, htaken.slots⟩

/-! ## Two runs side by side (spec/10_state.md R12, spec/70_reset_and_hazards.md R154) -/

/-- Two procedures end alike: with the same value, or the same error, in states that `R` relates. -/
inductive Run.Both {α : Type} (R : State → State → Prop) : Run α → Run α → Prop where
  | done (v : α) {t t' : State} (h : R t t') : Run.Both R (.done v t) (.done v t')
  | raised (k : ErrorKind) {t t' : State} (h : R t t') : Run.Both R (.raised k t) (.raised k t')

theorem both_andThen {α β : Type} {R : State → State → Prop} {r r' : Run α} {next next' : α → State → Run β}
    (hr : r.Both R r') (hnext : ∀ v t t', R t t' → (next v t).Both R (next' v t')) :
    (r.andThen next).Both R (r'.andThen next') := by
  cases hr with
  | done v h => exact hnext v _ _ h
  | raised k h => exact .raised k h

/-- Two runs that began in `s` and `s'` and stand in `t` and `t'`: slot `a`, the parameters and the inputs agree, and
both have caused the same events and have not answered yet. -/
structure Alike (a : Byte) (s s' t t' : State) : Prop where
  slot : t.slot a = t'.slot a
  params : t.params = t'.params
  answers : t.answers = t'.answers
  fresh : t.fresh = t'.fresh
  trace : ∃ events, t.trace = s.trace ++ events ∧ t'.trace = s'.trace ++ events
  responses : t.responses = s.responses ∧ t'.responses = s'.responses

section
variable {a : Byte} {s s' t t' : State}

theorem Alike.setSeq (h : Alike a s s' t t') (n m : Nat) : Alike a s s' (t.setSeq n) (t'.setSeq m) := by
  obtain ⟨hslot, hparams, hanswers, hfresh, htrace, hresponses⟩ := h
  exact ⟨hslot, hparams, hanswers, hfresh, htrace, hresponses⟩

theorem Alike.dropDraw (h : Alike a s s' t t') : Alike a s s' t.dropDraw t'.dropDraw := by
  obtain ⟨hslot, hparams, hanswers, hfresh, htrace, hresponses⟩ := h
  exact ⟨hslot, hparams, hanswers, congrArg (· + 1) hfresh, htrace, hresponses⟩

theorem Alike.drawCount (h : Alike a s s' t t') : t.drawCount = t'.drawCount := congrArg Config.freeCount h.fresh

theorem Alike.dropAnswer (h : Alike a s s' t t') : Alike a s s' t.dropAnswer t'.dropAnswer where
  slot := by simpa using h.slot
  params := by simpa using h.params
  answers := dropAnswer_answers_congr h.answers
  fresh := dropAnswer_fresh_congr h.answers h.fresh
  trace := by simpa using h.trace
  responses := by simpa using h.responses

theorem Alike.logEvent (h : Alike a s s' t t') (e : BusEvent) : Alike a s s' (t.logEvent e) (t'.logEvent e) := by
  obtain ⟨hslot, hparams, hanswers, hfresh, ⟨events, ht, ht'⟩, hresponses⟩ := h
  exact ⟨hslot, hparams, hanswers, hfresh, ⟨events ++ [e], by simp [ht], by simp [ht']⟩, hresponses⟩

theorem Alike.setSlot (h : Alike a s s' t t') (c : ChipConfig) : Alike a s s' (t.setSlot a c) (t'.setSlot a c) where
  slot := by
    cases hv : validAddress a with
    | true => rw [setSlot_slot_same c hv, setSlot_slot_same c hv]
    | false => simp [State.slot, hv]
  params := by simpa using h.params
  answers := by simpa using h.answers
  fresh := by simpa using h.fresh
  trace := by simpa using h.trace
  responses := by simpa using h.responses

/-! Each procedure ends alike from states that are alike. -/

theorem performOp_both (h : Alike a s s' t t') (op : BusOp) :
    (performOp a op t).Both (Alike a s s') (performOp a op t') := by
  cases op with
  | delay n => exact .done () (h.logEvent _)
  | write r v =>
    simp only [performOp, memWrite, nextAnswer_congr h.answers h.fresh]
    cases t'.nextAnswer with
    | success => exact .done () (h.dropAnswer.logEvent _)
    | busError => exact .raised .busError (h.dropAnswer.logEvent _)

theorem performAll_both (h : Alike a s s' t t') (ops : List BusOp) :
    (performAll a ops t).Both (Alike a s s') (performAll a ops t') := by
  induction ops generalizing t t' with
  | nil => exact .done () h
  | cons op rest ih => exact both_andThen (performOp_both h op) fun _ _ _ h' => ih h'

theorem initSequence_both (h : Alike a s s' t t') (f : Nat) :
    (initSequence a f t).Both (Alike a s s') (initSequence a f t') := by
  have hall := performAll_both h (initScript t'.params f)
  simp only [initSequence, runSequence_eq, h.params]
  generalize performAll a (initScript t'.params f) t = r, performAll a (initScript t'.params f) t' = r' at hall ⊢
  cases hall with
  | done v h' => exact .done v (h'.setSeq 0 0)
  | raised k h' => exact .raised k (h'.setSeq 0 0)

theorem lookupOrCreate_both (h : Alike a s s' t t') (f : Int) :
    (lookupOrCreate a f t).Both (Alike a s s') (lookupOrCreate a f t') := by
  simp only [lookupOrCreate, h.slot]
  split
  · split
    · exact .done _ h
    · exact both_andThen (initSequence_both h _) fun _ _ _ h' => .done _ (h'.setSlot _)
  · exact .raised _ h

theorem bringUp_both (h : Alike a s s' t t') (c : ChipConfig) :
    (bringUp a c t).Both (Alike a s s') (bringUp a c t') :=
  both_andThen (initSequence_both (h.setSlot _) _) fun _ _ _ h' => .done _ (h'.setSlot _)

theorem writeChannel_both (h : Alike a s s' t t') (p on off : Int) :
    (writeChannel a p on off t).Both (Alike a s s') (writeChannel a p on off t') :=
  performAll_both h _

theorem moveServo_both (h : Alike a s s' t t') (c : ChipConfig) (k : Fin 16) (pos : Position) (pwm : Int) :
    (moveServo a c k pos pwm t).Both (Alike a s s') (moveServo a c k pos pwm t') :=
  both_andThen (writeChannel_both (h.setSlot _) _ _ _) fun _ _ _ h' => .done _ h'

end

theorem bodyOf_both {i : Instr} {s s' t t' : State} (h : Alike i.address s s' t t') (found : Lookup) :
    (bodyOf i found t).Both (Alike i.address s s') (bodyOf i found t') := by
  cases i with
  | init a f =>
    simp only [bodyOf]
    split
    · exact .done _ h
    · exact bringUp_both h _
  | reset a =>
    simp only [bodyOf]
    split
    · exact .done _ h
    · exact bringUp_both h _
  | setPinPulseRange pin on off a => exact both_andThen (writeChannel_both h pin on off) fun _ _ _ h' => .done _ h'
  | setStandardServoAngle ch x a =>
    simp only [bodyOf, h.params, h.drawCount]
    split
    · exact moveServo_both h ..
    · exact moveServo_both h.dropDraw ..
  | setContinuousServoSpeed ch x a =>
    simp only [bodyOf, h.params, h.drawCount]
    split
    · exact moveServo_both h ..
    · exact moveServo_both h.dropDraw ..
  | setServoLimits ch mn mx md a => exact .done _ (h.setSlot _)
  | getChipConfig a => exact .done _ h

/-- Settles O59: the two runs stay alike up to their end, where both give the same response. -/
theorem chipsDoNotInfluenceEachOther : Obligations.ChipsDoNotInfluenceEachOther := by
  intro i s s' t t' hslot hparams hanswers hfresh ht ht'
  rw [exec_eq, Host.Outcome.next.injEq] at ht ht'
  subst ht ht'
  have hstart : Alike i.address s s' s s' := ⟨hslot, hparams, hanswers, hfresh, ⟨[], by simp⟩, rfl, rfl⟩
  have hend := both_andThen (lookupOrCreate_both hstart (lookupFrequency i)) fun found _ _ h => bodyOf_both h found
  generalize (lookupOrCreate i.address (lookupFrequency i) s).andThen (bodyOf i) = r at hend ⊢
  generalize (lookupOrCreate i.address (lookupFrequency i) s').andThen (bodyOf i) = r' at hend ⊢
  cases hend with
  | done v h => exact ⟨h.slot, h.trace, v, by simp [h.responses]⟩
  | raised k h => exact ⟨h.slot, h.trace, .err k, by simp [h.responses]⟩

end Sys2Proof.Machine
end

section
/-! The registers the block writes and the chip image: the statements of spec/20_memory.md. -/

namespace Sys2Proof.Machine

/-! ## The registers of a channel slot (spec/20_memory.md R32, R33) -/

/-- The four registers of a channel slot follow its base without a wrap (R33). -/
theorem slotBase_add_toNat {p j : Nat} (hp : p < 16) (hj : j < 4) :
    (slotBase p + BitVec.ofNat 8 j).toNat = 0x06 + 4 * p + j := by
  rw [slotBase, BitVec.toNat_add, BitVec.toNat_ofNat, BitVec.toNat_ofNat]
  omega

theorem slotBase_toNat {p : Nat} (hp : p < 16) : (slotBase p).toNat = 0x06 + 4 * p := by
  simpa using slotBase_add_toNat hp (show 0 < 4 by decide)

/-- Settles O32: each register is the base and its place in the slot. -/
theorem channelSlotRegisters : Obligations.ChannelSlotRegisters := by
  intro p hp
  have hp' : p < 16 := Nat.lt_succ_of_le hp
  exact ⟨slotBase_toNat hp', slotBase_add_toNat (j := 1) hp' (by decide), slotBase_add_toNat (j := 2) hp' (by decide),
    slotBase_add_toNat (j := 3) hp' (by decide)⟩

theorem clampPin_lt (p : Int) : clampPin p < 16 := by
  have := clamp_mem p (show (0 : Int) ≤ 15 by decide)
  unfold clampPin
  omega

/-- A pin in range is its own clamp (R72). -/
theorem clampPin_natCast {p : Nat} (hp : p < 16) : clampPin p = p := by
  simp [clampPin, clamp, show ¬ (p : Int) < 0 by omega, show ¬ (15 : Int) < p by omega]

theorem isBroadcast_iff (r : Byte) : isBroadcast r = true ↔ 0xFA ≤ r.toNat ∧ r.toNat ≤ 0xFD := by
  simp [isBroadcast]

/-- A broadcast register stands for the register at its own place in each channel slot (R32). -/
theorem broadcastTarget_toNat {r : Byte} {p : Nat} (hr : isBroadcast r = true) (hp : p < 16) :
    (broadcastTarget r p).toNat = 0x06 + 4 * p + (r.toNat - 0xFA) := by
  obtain ⟨hlo, hhi⟩ := (isBroadcast_iff r).1 hr
  have hplace : r - 0xFA = BitVec.ofNat 8 (r.toNat - 0xFA) := by
    apply BitVec.eq_of_toNat_eq
    rw [BitVec.toNat_sub, BitVec.toNat_ofNat, show (0xFA : Byte).toNat = 0xFA from rfl]
    omega
  rw [broadcastTarget, hplace, slotBase_add_toNat hp (by omega)]

theorem highByte_toNat_le (n : Count) : (highByte n).toNat ≤ 15 := by
  rw [highByte, BitVec.toNat_setWidth_of_le (by decide)]
  exact Nat.le_of_lt_succ (n.extractLsb' 8 4).isLt

/-! ## The chip image after an event (spec/20_memory.md R48) -/

theorem imageOf_concat (trace : List BusEvent) (e : BusEvent) : imageOf (trace ++ [e]) = (imageOf trace).apply e :=
  imageOf_append trace [e]

theorem imageOf_wf (trace : List BusEvent) : (imageOf trace).wf = true := by
  induction trace using List.reverseRecOn with
  | nil => rfl
  | append_singleton trace e ih => exact imageOf_concat trace e ▸ apply_wf e ih

/-- Settles O55: the empty image is canonical and every event keeps the form. -/
theorem imageIsCanonical : Obligations.ImageIsCanonical := imageOf_wf

/-- A successful write to register `r` sets register `q` of the same chip: itself, or a register it stands for (R32). -/
abbrev Reaches (r q : Byte) : Prop := q = r ∨ (isBroadcast r = true ∧ ∃ p, p < 16 ∧ q = broadcastTarget r p)

theorem read_write_location (m : Memory) (a r v b q : Byte) :
    (m.write (location a r) v).read (location b q) = if b = a ∧ q = r then some v else m.read (location b q) := by
  split
  · next h => rw [location_inj.2 h, read_write_same]
  · next h => exact read_write_other m v fun e => h (location_inj.1 e)

/-- What a successful write does to each location (R48). -/
theorem read_apply_success (m : Memory) (a r v b q : Byte) [Decidable (b = a ∧ Reaches r q)] :
    (m.apply (.write a r v .success)).read (location b q) =
      if b = a ∧ Reaches r q then some v else m.read (location b q) := by
  cases hr : isBroadcast r with
  | false => simp [Memory.apply, hr, read_write_location, Reaches]
  | true =>
    simp only [Memory.apply, hr, if_true, read_broadcast, read_write_location, location_inj]
    by_cases hb : b = a <;> by_cases hq : q = r <;> simp [hb, hq, hr, Reaches]

/-- What a failed write does to each location of a canonical image: its own becomes unknown (R48, log entry 16). -/
theorem read_apply_busError {m : Memory} (hm : m.wf = true) (a r v b q : Byte) :
    (m.apply (.write a r v .busError)).read (location b q) = if b = a ∧ q = r then none else m.read (location b q) := by
  simp only [Memory.apply]
  split
  · next h => rw [location_inj.2 h, read_forget_same _ hm]
  · next h => exact read_forget_other m fun e => h (location_inj.1 e)

/-- Settles O54: the last event acts on the image of the trace before it. -/
theorem imageFollowsTheLastEvent : Obligations.ImageFollowsTheLastEvent := by
  intro trace a r v b q
  simp only [imageOf_concat]
  exact ⟨read_apply_success _ a r v b q, read_apply_busError (imageOf_wf trace) a r v b q, fun _ => rfl, rfl⟩

/-- A write, whatever its answer, leaves the locations it does not reach. -/
theorem read_apply_write_of_not_reaches (m : Memory) {a r b q : Byte} (v : Byte) (ans : BusAnswer)
    (h : b = a → ¬ Reaches r q) : (m.apply (.write a r v ans)).read (location b q) = m.read (location b q) := by
  cases ans with
  | success => rw [read_apply_success, if_neg fun ⟨hb, hq⟩ => h hb hq]
  | busError =>
    refine read_forget_other m fun e => ?_
    obtain ⟨hb, hq⟩ := location_inj.1 e
    exact h hb (.inl hq)

/-! ## The bus operations a procedure performs (spec/20_memory.md R42) -/

/-- The event is the performance, at bus address `a`, of an operation that meets `P`, whatever the answer. -/
def BusEvent.ComesFrom (a : Byte) (P : BusOp → Prop) : BusEvent → Prop
  | .write b r v _ => b = a ∧ P (.write r v)
  | .delay n => P (.delay n)

/-- From `s` to `t` the parameters are kept and the trace is extended by operations that meet `P`, at bus address `a`. -/
structure Performs (a : Byte) (P : BusOp → Prop) (s t : State) : Prop where
  params : t.params = s.params
  trace : ∃ events, t.trace = s.trace ++ events ∧ ∀ e ∈ events, e.ComesFrom a P

section
variable {a : Byte} {P : BusOp → Prop} {s t u : State}

/-- An update of other fields performs nothing. -/
theorem Performs.of_eq (hp : t.params = s.params) (ht : t.trace = s.trace) : Performs a P s t :=
  ⟨hp, [], by simpa using ht, nofun⟩

theorem Performs.refl : Performs a P s s := .of_eq rfl rfl

theorem Performs.trans (h : Performs a P s t) (h' : Performs a P t u) : Performs a P s u := by
  obtain ⟨hp, events, ht, he⟩ := h
  obtain ⟨hp', events', ht', he'⟩ := h'
  exact ⟨hp'.trans hp, events ++ events', by rw [ht', ht, List.append_assoc], List.forall_mem_append.2 ⟨he, he'⟩⟩

theorem Performs.mono {Q : BusOp → Prop} (h : Performs a P s t) (hPQ : ∀ op, P op → Q op) : Performs a Q s t := by
  obtain ⟨hp, events, ht, he⟩ := h
  refine ⟨hp, events, ht, fun e hmem => ?_⟩
  cases e with
  | write b r v ans => exact (he _ hmem).imp_right (hPQ _)
  | delay n => exact hPQ _ (he _ hmem)

theorem performOp_performs {op : BusOp} (h : P op) : (performOp a op s).Ends (Performs a P s) := by
  cases op with
  | delay n => exact ⟨rfl, [_], rfl, List.forall_mem_singleton.2 h⟩
  | write r v =>
    simp only [performOp, memWrite]
    split
    · exact ⟨by simp, [_], congrArg (· ++ _) (dropAnswer_trace s), List.forall_mem_singleton.2 ⟨rfl, h⟩⟩
    · exact ⟨by simp, [_], congrArg (· ++ _) (dropAnswer_trace s), List.forall_mem_singleton.2 ⟨rfl, h⟩⟩

theorem performAll_performs {ops : List BusOp} (h : ∀ op ∈ ops, P op) : (performAll a ops s).Ends (Performs a P s) := by
  induction ops generalizing s with
  | nil => exact .refl
  | cons op rest ih =>
    obtain ⟨hop, hrest⟩ := List.forall_mem_cons.1 h
    exact ends_andThen (performOp_performs hop) fun _ _ hs => ends_imp (ih hrest) fun _ => hs.trans

theorem initSequence_performs {f : Nat} (h : ∀ op ∈ initScript s.params f, P op) :
    (initSequence a f s).Ends (Performs a P s) := by
  have hall := performAll_performs (a := a) (s := s) h
  rw [initSequence, runSequence_eq]
  generalize performAll a (initScript s.params f) s = r at hall ⊢
  cases r with
  | done v t => exact hall.trans (.of_eq rfl rfl)
  | raised k t => exact hall.trans (.of_eq rfl rfl)

theorem bringUp_performs {c : ChipConfig} (h : ∀ op ∈ initScript s.params c.frequency, P op) :
    (bringUp a c s).Ends (Performs a P s) := by
  have hstored (phase : BringUp) (t : State) : Performs a P t (t.setSlot a { c with phase := phase }) :=
    .of_eq (by simp) (by simp)
  refine ends_andThen (ends_imp (initSequence_performs (by simpa using h)) fun _ => (hstored .initializing s).trans) ?_
  exact fun _ t ht => ht.trans (hstored .running t)

theorem writeChannel_performs {p on off : Int} (h : ∀ op ∈ channelScript p on off, P op) :
    (writeChannel a p on off s).Ends (Performs a P s) :=
  performAll_performs h

theorem moveServo_performs {c : ChipConfig} {k : Fin 16} {pos : Position} {pwm : Int}
    (h : ∀ op ∈ channelScript (c.servo k).pinNumber.toNat 0 pwm, P op) :
    (moveServo a c k pos pwm s).Ends (Performs a P s) :=
  ends_andThen (ends_imp (writeChannel_performs h) fun _ => (Performs.of_eq (by simp) (by simp)).trans) fun _ _ ht => ht

end

/-- The four operations of the encoder: writes to the registers of the clamped pin's slot, an `_H` byte below 16 (R70,
R71). -/
theorem exists_place_of_mem_channelScript {p on off : Int} {op : BusOp} (h : op ∈ channelScript p on off) :
    ∃ j v, j < 4 ∧ op = .write (slotBase (clampPin p) + BitVec.ofNat 8 j) v ∧ (j % 2 = 1 → v.toNat ≤ 15) := by
  simp only [channelScript, List.mem_cons, List.not_mem_nil, or_false] at h
  obtain rfl | rfl | rfl | rfl := h
  · exact ⟨0, _, by decide, by rw [BitVec.add_zero], nofun⟩
  · exact ⟨1, _, by decide, rfl, fun _ => highByte_toNat_le _⟩
  · exact ⟨2, _, by decide, rfl, nofun⟩
  · exact ⟨3, _, by decide, rfl, fun _ => highByte_toNat_le _⟩

/-! ## The operations of the block (spec/20_memory.md R40, R71) -/

/-- An operation the block performs under parameters `p`: a write that R40 allows, or the delay of the init sequence. -/
def BusOp.Issued (p : Params) : BusOp → Prop
  | .write r v => writable r v = true
  | .delay n => n = p.initDelayUs

theorem writable_iff (r v : Byte) : writable r v = true ↔ r = 0x00 ∨ r = 0xFE ∨ (isBroadcast r = true ∧ v = 0) ∨
    (0x06 ≤ r.toNat ∧ r.toNat ≤ 0x45 ∧ (r.toNat % 2 = 0 ∨ v.toNat ≤ 15)) := by
  simp [writable, or_assoc, and_assoc]

theorem issued_of_mem_initScript {p : Params} {f : Nat} {op : BusOp} (h : op ∈ initScript p f) : op.Issued p := by
  simp only [initScript, List.mem_cons, List.not_mem_nil, or_false] at h
  obtain rfl | rfl | rfl | rfl | rfl | rfl | rfl | rfl | rfl := h <;> simp [BusOp.Issued, writable, isBroadcast]

theorem issued_of_mem_channelScript {params : Params} {p on off : Int} {op : BusOp} (h : op ∈ channelScript p on off) :
    op.Issued params := by
  obtain ⟨j, v, hj, rfl, hv⟩ := exists_place_of_mem_channelScript h
  have hp := clampPin_lt p
  simp only [BusOp.Issued, writable_iff, slotBase_add_toNat hp hj]
  omega

theorem lookupOrCreate_issues (a : Byte) (f : Int) (s : State) :
    (lookupOrCreate a f s).Ends (Performs a (·.Issued s.params) s) := by
  unfold lookupOrCreate
  split
  · split
    · exact .refl
    · exact ends_andThen (initSequence_performs fun _ => issued_of_mem_initScript) fun _ _ ht =>
        ht.trans (.of_eq (by simp) (by simp))
  · exact .refl

theorem bodyOf_issues (i : Instr) (found : Lookup) (s : State) :
    (bodyOf i found s).Ends (Performs i.address (·.Issued s.params) s) := by
  have hdraw {a : Byte} {P : BusOp → Prop} : Performs a P s s.dropDraw := .of_eq rfl rfl
  cases i with
  | init a f =>
    simp only [bodyOf]
    split
    · exact .refl
    · exact bringUp_performs fun _ => issued_of_mem_initScript
  | reset a =>
    simp only [bodyOf]
    split
    · exact .refl
    · exact bringUp_performs fun _ => issued_of_mem_initScript
  | setPinPulseRange pin on off a =>
    exact ends_andThen (writeChannel_performs fun _ => issued_of_mem_channelScript) fun _ _ h => h
  | setStandardServoAngle ch x a =>
    simp only [bodyOf]
    split
    · exact moveServo_performs fun _ => issued_of_mem_channelScript
    · exact ends_imp (moveServo_performs fun _ => issued_of_mem_channelScript) fun _ => hdraw.trans
  | setContinuousServoSpeed ch x a =>
    simp only [bodyOf]
    split
    · exact moveServo_performs fun _ => issued_of_mem_channelScript
    · exact ends_imp (moveServo_performs fun _ => issued_of_mem_channelScript) fun _ => hdraw.trans
  | setServoLimits ch mn mx md a => exact .of_eq (by simp) (by simp)
  | getChipConfig a => exact .refl

/-- What a procedure performs is performed by the command that ends with it. -/
theorem finish_performs {a : Byte} {P : BusOp → Prop} {s : State} {r : Run Response} (h : r.Ends (Performs a P s)) :
    Performs a P s r.finish :=
  finish_of_ends h (fun _ _ ht => ht.trans (.of_eq rfl rfl)) (fun _ _ ht => ht.trans (.of_eq rfl rfl))

/-- Every bus event of a command, completed or failed, is one of the block's operations at the command's address. -/
theorem exec_issues {i : Instr} {s t : State} (h : exec i s = .next t) :
    Performs i.address (·.Issued s.params) s t := by
  rw [exec_eq, Host.Outcome.next.injEq] at h
  subst h
  refine finish_performs (ends_andThen (lookupOrCreate_issues ..) fun found s' hs => ?_)
  exact ends_imp (hs.params ▸ bodyOf_issues i found s') fun _ => hs.trans

/-- A command at an invalid address takes the error and does nothing else (R83). -/
theorem exec_of_invalid {i : Instr} (s : State) (hv : validAddress i.address = false) :
    exec i s = .next (s.takeError .invalidAddress) := by
  rw [exec_eq, lookupOrCreate_of_invalid _ _ hv, andThen_raised, finish_raised]

theorem initDelayUs_of_valid {p : Params} (h : p.valid = true) : 500 ≤ p.initDelayUs ∧ p.initDelayUs < 2 ^ 32 := by
  simp only [Params.valid, Bool.and_eq_true, decide_eq_true_eq] at h
  obtain ⟨⟨⟨⟨-, hlo⟩, hhi⟩, -⟩, -⟩ := h
  exact ⟨hlo, hhi⟩

/-- The block's operations at a valid address are events it may cause. -/
theorem allowed_of_issued {p : Params} {a : Byte} {e : BusEvent} (hp : p.valid = true) (ha : validAddress a = true)
    (h : e.ComesFrom a (·.Issued p)) : e.allowed = true := by
  cases e with
  | write b r v ans =>
    obtain ⟨rfl, hw⟩ := h
    simpa [BusEvent.allowed, ha, BusOp.Issued] using hw
  | delay n =>
    cases h
    simpa [BusEvent.allowed] using initDelayUs_of_valid hp

/-- A command keeps the trace to the events the block may cause. -/
theorem exec_traceAllowed {i : Instr} {s t : State} (hp : s.params.valid = true) (hs : TraceAllowed s.trace)
    (h : exec i s = .next t) : TraceAllowed t.trace := by
  cases ha : validAddress i.address with
  | false =>
    rw [exec_of_invalid s ha] at h
    cases h
    exact hs
  | true =>
    obtain ⟨-, events, ht, he⟩ := exec_issues h
    rw [ht]
    exact List.forall_mem_append.2 ⟨hs, fun e hmem => allowed_of_issued hp ha (he e hmem)⟩

/-- Settles O16: a step runs a command, whose events are the block's operations, or causes no event. -/
theorem stepWritesOnlyAllowedRegisters : Obligations.StepWritesOnlyAllowedRegisters := by
  intro s t hp hs h
  obtain rfl | ⟨w, rest, -, ⟨i, -, hexec⟩ | ⟨-, rfl⟩⟩ := step_cases h
  · exact hs
  · exact exec_traceAllowed (s := { s with commands := rest }) hp hs hexec
  · exact hs

/-! ## Frames of the chip image (spec/20_memory.md R40, R48) -/

/-- The operation, even when it succeeds, does not set register `q`. -/
def BusOp.Misses (q : Byte) : BusOp → Prop
  | .write r _ => ¬ Reaches r q
  | .delay _ => True

/-- Operations on another chip, and those that miss register `q`, leave the image of `(b, q)`. -/
theorem Performs.image_eq {a b q : Byte} {s t : State} (h : Performs a (fun op => b = a → op.Misses q) s t) :
    t.image b q = s.image b q := by
  obtain ⟨-, events, ht, he⟩ := h
  rw [State.image, State.image, ht, imageOf_append]
  generalize imageOf s.trace = m
  clear ht
  induction events generalizing m with
  | nil => rfl
  | cons e rest ih =>
    obtain ⟨hfirst, hrest⟩ := List.forall_mem_cons.1 he
    rw [List.foldl_cons, ih hrest]
    cases e with
    | delay n => rfl
    | write a' r v ans =>
      obtain ⟨rfl, hmiss⟩ := hfirst
      exact read_apply_write_of_not_reaches m v ans hmiss

/-- A register the block never writes (R40). -/
def Unwritten (q : Byte) : Prop := (0x01 ≤ q.toNat ∧ q.toNat ≤ 0x05) ∨ (0x46 ≤ q.toNat ∧ q.toNat ≤ 0xF9) ∨ q = 0xFF

/-- Neither the registers R40 lets the block write nor those a broadcast stands for are among the unwritten ones. -/
theorem not_reaches_of_writable {r v q : Byte} (hw : writable r v = true) (hq : Unwritten q) : ¬ Reaches r q := by
  have hq : q.toNat ≠ 0x00 ∧ q.toNat ≠ 0xFE ∧ ¬ (0xFA ≤ q.toNat ∧ q.toNat ≤ 0xFD) ∧
      ¬ (0x06 ≤ q.toNat ∧ q.toNat ≤ 0x45) := by
    obtain hq | hq | rfl := hq
    · omega
    · omega
    · decide
  obtain ⟨hmode1, hprescale, hall, hchannel⟩ := hq
  rintro (rfl | ⟨hr, p, hp, rfl⟩)
  · obtain rfl | rfl | ⟨hb, -⟩ | ⟨hlo, hhi, -⟩ := (writable_iff q v).1 hw
    · exact hmode1 rfl
    · exact hprescale rfl
    · exact hall ((isBroadcast_iff q).1 hb)
    · exact hchannel ⟨hlo, hhi⟩
  · have hlast := ((isBroadcast_iff r).1 hr).2
    rw [broadcastTarget_toNat hr hp] at hchannel
    omega

theorem BusOp.Issued.misses {params : Params} {op : BusOp} {q : Byte} (h : op.Issued params) (hq : Unwritten q) :
    op.Misses q := by
  cases op with
  | write r v => exact not_reaches_of_writable h hq
  | delay n => trivial

/-- Settles O57: no operation of the block reaches a register it never writes, and none is at another chip. -/
theorem unwrittenRegistersKeepTheirImage : Obligations.UnwrittenRegistersKeepTheirImage := by
  intro i s t b r h hr
  refine ((exec_issues h).mono fun op hop hb => hop.misses ?_).image_eq
  exact hr.resolve_left (not_not_intro hb)

/-- The encoder's operations miss every register outside the slot of the clamped pin (R70). -/
theorem misses_of_mem_channelScript {p on off : Int} {op : BusOp} {q : Byte} (h : op ∈ channelScript p on off)
    (hq : ∀ j, j < 4 → q.toNat ≠ (slotBase (clampPin p)).toNat + j) : op.Misses q := by
  obtain ⟨j, v, hj, rfl, -⟩ := exists_place_of_mem_channelScript h
  have hplace := slotBase_add_toNat (clampPin_lt p) hj
  rintro (rfl | ⟨hb, -⟩)
  · exact hq j hj (hplace.trans (by rw [slotBase_toNat (clampPin_lt p)]))
  · have hlo := ((isBroadcast_iff _).1 hb).1
    have hp := clampPin_lt p
    omega

/-- On a registered slot a command is its own body (R81). -/
theorem exec_of_hit {i : Instr} {s : State} {c : ChipConfig} (h : s.slot i.address = some c) :
    exec i s = .next (bodyOf i { created := false, config := c } s).finish := by
  rw [exec_eq, lookupOrCreate_of_hit _ s h, andThen_done]

section
variable {s t : State} {a : Byte} {c : ChipConfig} {P : BusOp → Prop}

/-- On a registered slot `setPinPulseRange` performs the encoder's operations alone (R73). -/
theorem exec_setPinPulseRange_performs {pin on off : Int} (hc : s.slot a = some c)
    (h : exec (.setPinPulseRange pin on off a) s = .next t) (hP : ∀ op ∈ channelScript pin on off, P op) :
    Performs a P s t := by
  rw [exec_of_hit hc, Host.Outcome.next.injEq] at h
  subst h
  exact finish_performs (ends_andThen (writeChannel_performs hP) fun _ _ ht => ht)

/-- On a registered slot a motion command performs the encoder's operations for the channel's pin alone (R105, R106). -/
theorem exec_motion_performs {ch x : Int} (hc : s.slot a = some c)
    (h : exec (.setStandardServoAngle ch x a) s = .next t ∨ exec (.setContinuousServoSpeed ch x a) s = .next t)
    (hP : ∀ pwm, ∀ op ∈ channelScript (c.servo (channelIndex ch)).pinNumber.toNat 0 pwm, P op) : Performs a P s t := by
  have hdraw : Performs a P s s.dropDraw := .of_eq rfl rfl
  obtain h | h := h
  all_goals
    rw [exec_of_hit hc, Host.Outcome.next.injEq] at h
    subst h
    refine finish_performs ?_
    simp only [bodyOf]
    split
    · exact moveServo_performs (hP _)
    · exact ends_imp (moveServo_performs (hP _)) fun _ => hdraw.trans

end

/-- Settles O56: on a registered slot these commands perform the encoder's operations alone, which miss every other
register. -/
theorem channelWritesTouchOnlyTheirSlot : Obligations.ChannelWritesTouchOnlyTheirSlot := by
  intro s t a b r c pin on off ch x hc
  refine ⟨fun h hr => ?_, fun h hr => ?_⟩
  · refine (exec_setPinPulseRange_performs hc h fun op hop hb => ?_).image_eq
    exact misses_of_mem_channelScript hop (hr.resolve_left (not_not_intro hb))
  · refine (exec_motion_performs hc h fun pwm op hop hb => ?_).image_eq
    refine misses_of_mem_channelScript hop ?_
    rw [clampPin_natCast (BitVec.isLt _)]
    exact hr.resolve_left (not_not_intro hb)

end Sys2Proof.Machine
end

section
/-! The command word and its fields, the assembler's line read back, and each command's one response and clamps: the
statements of spec/30_encoding.md. -/

/-! ## The eight fields of a word (spec/30_encoding.md R50 to R55) -/

namespace Sys2Proof

/-- Settles O2: each operand is a field read as R53 says. -/
theorem decodedCommandIsWellFormed : Obligations.DecodedCommandIsWellFormed :=
  fun _ _ _ h => wellFormed_of_decode h

/-- Settles O3: each field starts where the next one ends, so that joining them from `op` on cuts out a growing upper part
of the word. -/
theorem everyWordIsItsEightFields : Obligations.EveryWordIsItsEightFields := by
  intro operandW w
  simp only [packFields, fieldOp, fieldRsv, fieldM, fieldAddr, fieldA, fieldB, fieldC, fieldD]
  iterate 7 rw [BitVec.extractLsb'_append_extractLsb'_eq_extractLsb' (by omega)]
  exact extract_all w 0 rfl

/-- A word whose `op` is above 6 is refused by its `op` alone (R54). -/
theorem decode_of_illegal {operandW : Nat} {w : CmdWord operandW} (h : 7 ≤ (fieldOp w).toNat) :
    decode operandW w = .error (.illegalOp (fieldOp w)) := by
  unfold decode
  split
  case h_8 => rfl
  all_goals omega

/-- Settles O4: the decoder reads a packed word by its fields, and of these only the listed ones, which
are the same on both sides; of an illegal word it reads `op` alone. -/
theorem ignoredBitsDoNotChangeTheCommand : Obligations.IgnoredBitsDoNotChangeTheCommand := by
  refine fun operandW => ⟨fun r r' m m' addr a b c d a' b' c' d' => ?_, fun w w' hop h => ?_⟩
  · refine ⟨?_, ?_, ?_, ?_, ?_, ?_, ?_, ?_⟩ <;> simp only [decode, fields_packFields] <;> rfl
  · rw [decode_of_illegal h, decode_of_illegal (hop ▸ h), hop]

/-- Settles O5: the decoder run on each word. -/
theorem wordsOfTheSpecDecode : Obligations.WordsOfTheSpecDecode := by
  unfold Obligations.WordsOfTheSpecDecode
  decide

/-! ## The assembler's operands (spec/30_encoding.md R57) -/

@[simp] theorem asmByte_toNat (address : Byte) : asmByte address.toNat = some address := by
  have := address.isLt
  rw [asmByte, if_pos (by omega), BitVec.ofInt_natCast, BitVec.ofNat_toNat, BitVec.setWidth_eq]

theorem asmSigned_of_fits {operandW : Nat} {x : Int} (h : fitsSigned operandW x = true) :
    asmSigned operandW x = some x :=
  if_pos h

theorem asmUnsigned_of_fits {operandW n : Nat} (h : fitsUnsigned operandW n = true) :
    asmUnsigned operandW n = some n :=
  if_pos ⟨Int.natCast_nonneg n, h⟩

/-- The call of a command that has a word assembles to that command. -/
theorem assembleCall_operands {operandW : Nat} {i : Instr} (h : i.wellFormed operandW = true) :
    assembleCall operandW i.mnemonic i.operands = some i := by
  cases i with
  | init address frequency => simp [Instr.mnemonic, Instr.operands, assembleCall, asmSigned_of_fits h]
  | reset address => simp [Instr.mnemonic, Instr.operands, assembleCall]
  | setPinPulseRange pin onStep offStep address =>
    simp only [Instr.wellFormed, Bool.and_eq_true] at h
    obtain ⟨⟨hpin, hon⟩, hoff⟩ := h
    simp [Instr.mnemonic, Instr.operands, assembleCall, asmSigned_of_fits hpin, asmSigned_of_fits hon,
      asmSigned_of_fits hoff]
  | setStandardServoAngle channel angle address =>
    simp only [Instr.wellFormed, Bool.and_eq_true] at h
    obtain ⟨hch, hx⟩ := h
    simp [Instr.mnemonic, Instr.operands, assembleCall, asmSigned_of_fits hch, asmSigned_of_fits hx]
  | setContinuousServoSpeed channel speed address =>
    simp only [Instr.wellFormed, Bool.and_eq_true] at h
    obtain ⟨hch, hx⟩ := h
    simp [Instr.mnemonic, Instr.operands, assembleCall, asmSigned_of_fits hch, asmSigned_of_fits hx]
  | setServoLimits channel minOffset maxOffset midOffset address =>
    simp only [Instr.wellFormed, Bool.and_eq_true] at h
    obtain ⟨⟨⟨hch, hmin⟩, hmax⟩, hmid⟩ := h
    cases midOffset with
    | none =>
      simp [Instr.mnemonic, Instr.operands, assembleCall, asmSigned_of_fits hch, asmUnsigned_of_fits hmin,
        asmUnsigned_of_fits hmax]
    | some mid =>
      simp [Instr.mnemonic, Instr.operands, assembleCall, asmSigned_of_fits hch, asmUnsigned_of_fits hmin,
        asmUnsigned_of_fits hmax, asmUnsigned_of_fits hmid]
  | getChipConfig address => simp [Instr.mnemonic, Instr.operands, assembleCall]

/-- Settles O6: each operand is in its field's range, so the assembler takes it as it stands. -/
theorem assemblerCallOfACommandIsTheCommand : Obligations.AssemblerCallOfACommandIsTheCommand :=
  fun _ _ h => assembleCall_operands h

/-! ## Numerals read back (spec/30_encoding.md R57) -/

theorem exists_digitChar_of_mem_toDigits {base n : Nat} {ch : Char} (hb : 1 < base) (h : ch ∈ Nat.toDigits base n) :
    ∃ d, ch = Nat.digitChar d := by
  induction n using Nat.strongRecOn with
  | ind n ih =>
    rcases Nat.lt_or_ge n base with hn | hn
    · rw [Nat.toDigits_of_lt_base hn, List.mem_singleton] at h
      exact ⟨n, h⟩
    · rw [Nat.toDigits_of_base_le hb hn, List.mem_append, List.mem_singleton] at h
      exact h.elim (ih _ (Nat.div_lt_self (by omega) hb)) fun h => ⟨_, h⟩

/-- The assembler reads the digit that the numeral writes. -/
theorem asmDigit_digitChar {base d : Nat} (hb : base ≤ 16) (hd : d < base) :
    asmDigit base (Nat.digitChar d) = some d := by
  have hd' : d < 16 := by omega
  interval_cases d <;> exact if_pos hd

theorem asmDigits_append_singleton (base acc : Nat) (cs : List Char) (ch : Char) :
    asmDigits base acc (cs ++ [ch]) =
      (asmDigits base acc cs).bind fun n => (asmDigit base ch).map fun v => n * base + v := by
  induction cs generalizing acc with
  | nil =>
    simp only [List.nil_append, asmDigits, Option.bind_some]
    cases asmDigit base ch <;> rfl
  | cons c cs ih =>
    simp only [List.cons_append, asmDigits, ih]
    cases asmDigit base c <;> rfl

/-- The digits of a number are read back as the number: the last digit is `n % base`, the others those of `n / base`. -/
theorem asmDigits_toDigits {base : Nat} (n : Nat) (hb : 1 < base) (hb' : base ≤ 16) :
    asmDigits base 0 (Nat.toDigits base n) = some n := by
  induction n using Nat.strongRecOn with
  | ind n ih =>
    rcases Nat.lt_or_ge n base with hn | hn
    · simp [Nat.toDigits_of_lt_base hn, asmDigits, asmDigit_digitChar hb' hn]
    · rw [Nat.toDigits_of_base_le hb hn, asmDigits_append_singleton, ih _ (Nat.div_lt_self (by omega) hb),
        asmDigit_digitChar hb' (Nat.mod_lt n (by omega))]
      exact congrArg some (Nat.div_add_mod' n base)

/-- The digits of a numeral, without its sign. -/
def unsignedNumeral (hex : Bool) (n : Nat) : List Char :=
  if hex then '0' :: 'x' :: Nat.toDigits 16 n else Nat.toDigits 10 n

theorem numeral_eq (hex : Bool) (x : Int) :
    numeral hex x = (if x < 0 then ['-'] else []) ++ unsignedNumeral hex x.natAbs := rfl

/-- A number that does not begin with `0x` is read as a decimal one. -/
theorem asmNat_of_not_mem_x {cs : List Char} (hne : cs ≠ []) (hx : 'x' ∉ cs) : asmNat cs = asmDigits 10 0 cs := by
  unfold asmNat
  split
  · simp at hx
  · rfl
  · exact absurd rfl hne

theorem asmNat_unsignedNumeral (hex : Bool) (n : Nat) : asmNat (unsignedNumeral hex n) = some n := by
  cases hex with
  | true =>
    obtain ⟨ch, rest, hcs⟩ := List.exists_cons_of_ne_nil (Nat.toDigits_ne_nil (n := n) (b := 16))
    have hread := asmDigits_toDigits (base := 16) n (by decide) (by decide)
    rw [hcs] at hread
    simpa [unsignedNumeral, asmNat, hcs] using hread
  | false =>
    have hx : 'x' ∉ Nat.toDigits 10 n := fun h => by
      obtain ⟨d, hd⟩ := exists_digitChar_of_mem_toDigits (by decide) h
      exact Nat.digitChar_ne 'x' rfl hd.symm
    exact (asmNat_of_not_mem_x Nat.toDigits_ne_nil hx).trans (asmDigits_toDigits n (by decide) (by decide))

/-- A character of a numeral without sign is `x` or a digit. -/
theorem mem_unsignedNumeral {hex : Bool} {n : Nat} {ch : Char} (h : ch ∈ unsignedNumeral hex n) :
    ch = 'x' ∨ ∃ d, ch = Nat.digitChar d := by
  cases hex with
  | true =>
    obtain rfl | h := List.mem_cons.1 h
    · exact .inr ⟨0, rfl⟩
    · exact (List.mem_cons.1 h).imp_right (exists_digitChar_of_mem_toDigits (by decide))
  | false => exact .inr (exists_digitChar_of_mem_toDigits (by decide) h)

/-- A number that does not begin with `-` is read without a sign. -/
theorem asmInt_of_not_mem_minus {cs : List Char} (h : '-' ∉ cs) :
    asmInt cs = (asmNat cs).map fun (n : Nat) => (n : Int) := by
  unfold asmInt
  split
  · simp at h
  · rfl

theorem minus_not_mem_unsignedNumeral (hex : Bool) (n : Nat) : '-' ∉ unsignedNumeral hex n := fun h => by
  obtain h | ⟨d, h⟩ := mem_unsignedNumeral h
  · exact absurd h (by decide)
  · exact Nat.digitChar_ne '-' rfl h.symm

/-- The assembler reads back the number that a numeral writes. -/
theorem asmInt_numeral (hex : Bool) (x : Int) : asmInt (numeral hex x) = some x := by
  rw [numeral_eq]
  split
  · simp only [List.cons_append, List.nil_append, asmInt, asmNat_unsignedNumeral, Option.map_some, Option.some.injEq]
    omega
  · rw [List.nil_append, asmInt_of_not_mem_minus (minus_not_mem_unsignedNumeral hex _), asmNat_unsignedNumeral,
      Option.map_some, Option.some.injEq]
    omega

/-! ## The line cut into name and operands (spec/30_encoding.md R57) -/

/-- The characters that cut a line: the comment mark, the blank, the parentheses and the comma. -/
def cutMarks : List Char := [';', ' ', '(', ')', ',']

/-- The text holds no character that cuts a line. -/
def Plain (cs : List Char) : Prop := ∀ ch ∈ cs, ch ∉ cutMarks

theorem Plain.not_mem {cs : List Char} (h : Plain cs) {sep : Char} (hsep : sep ∈ cutMarks) : sep ∉ cs :=
  fun hm => h sep hm hsep

theorem plain_numeral (hex : Bool) (x : Int) : Plain (numeral hex x) := by
  intro ch h
  have hch : ch = '-' ∨ ch = 'x' ∨ ∃ d, ch = Nat.digitChar d := by
    rw [numeral_eq, List.mem_append] at h
    exact h.imp (fun h => by split at h <;> simp_all) mem_unsignedNumeral
  obtain rfl | rfl | ⟨d, rfl⟩ := hch
  · decide
  · decide
  · simp [cutMarks, Nat.digitChar_ne]

theorem plain_mnemonic (i : Instr) : Plain i.mnemonic.toList := by
  cases i <;> simp [Instr.mnemonic, Plain, cutMarks]

theorem cutAtChar_of_not_mem {sep : Char} {cs : List Char} (h : sep ∉ cs) : cutAtChar sep cs = (cs, none) := by
  induction cs with
  | nil => rfl
  | cons c cs ih =>
    obtain ⟨hc, hcs⟩ := not_or.1 (mt List.mem_cons.2 h)
    rw [cutAtChar, if_neg (Ne.symm hc), ih hcs]

theorem cutAtChar_append {sep : Char} {cs : List Char} (rest : List Char) (h : sep ∉ cs) :
    cutAtChar sep (cs ++ sep :: rest) = (cs, some rest) := by
  induction cs with
  | nil => exact if_pos rfl
  | cons c cs ih =>
    obtain ⟨hc, hcs⟩ := not_or.1 (mt List.mem_cons.2 h)
    rw [List.cons_append, cutAtChar, if_neg (Ne.symm hc), ih hcs]

theorem Plain.filter_eq {cs : List Char} (h : Plain cs) : (cs.filter fun ch => ch ≠ ' ') = cs := by
  rw [List.filter_eq_self]
  exact fun ch hch => decide_eq_true fun e => h.not_mem (sep := ' ') (by decide) (e ▸ hch)

/-- Up to the next comma or parenthesis the characters are gathered. -/
theorem asmArgs_append {cs : List Char} (acc rest : List Char) (h : Plain cs) :
    asmArgs acc (cs ++ rest) = asmArgs (cs.reverse ++ acc) rest := by
  induction cs generalizing acc with
  | nil => rfl
  | cons c cs ih =>
    obtain ⟨hc, hcs⟩ := List.forall_mem_cons.1 h
    have hclose : c ≠ ')' := by rintro rfl; exact hc (by decide)
    have hcomma : c ≠ ',' := by rintro rfl; exact hc (by decide)
    rw [List.cons_append, asmArgs, if_neg hclose, if_neg hcomma, ih _ hcs, List.reverse_cons, List.append_assoc,
      List.singleton_append]

theorem argsText_cons_cons (hex : Bool) (x y : Int) (ys : List Int) :
    argsText hex (x :: y :: ys) = numeral hex x ++ ',' :: ' ' :: argsText hex (y :: ys) := rfl

/-- The operands' text, its blanks dropped, is read back as the operands. -/
theorem asmArgs_argsText (hex : Bool) {xs : List Int} (h : xs ≠ []) :
    asmArgs [] ((argsText hex xs).filter fun ch => ch ≠ ' ') = some xs := by
  induction xs with
  | nil => exact absurd rfl h
  | cons x xs ih =>
    cases xs with
    | nil =>
      rw [argsText, List.filter_append, (plain_numeral hex x).filter_eq, asmArgs_append _ _ (plain_numeral hex x)]
      simp [asmArgs, asmInt_numeral]
    | cons y ys =>
      rw [argsText_cons_cons, List.filter_append, (plain_numeral hex x).filter_eq,
        asmArgs_append _ _ (plain_numeral hex x)]
      simpa [asmArgs, asmInt_numeral] using ih (by simp)

theorem semicolon_not_mem_argsText (hex : Bool) (xs : List Int) : ';' ∉ argsText hex xs := by
  have hnum (x : Int) : ';' ∉ numeral hex x := (plain_numeral hex x).not_mem (by decide)
  induction xs with
  | nil => simp [argsText]
  | cons x xs ih =>
    cases xs with
    | nil => simp [argsText, hnum]
    | cons y ys => simpa [argsText, hnum] using ih

theorem operands_ne_nil (i : Instr) : i.operands ≠ [] := by
  unfold Instr.operands
  split <;> exact List.cons_ne_nil _ _

/-- The assembler cuts a command's line into its name and its operands. -/
theorem assembleLine_line (operandW : Nat) (hex : Bool) (i : Instr) :
    assembleLine operandW (i.line hex) = (assembleCall operandW i.mnemonic i.operands).map (encode operandW) := by
  have hname := plain_mnemonic i
  have hcomment : ';' ∉ i.line hex := by
    simpa [Instr.line, semicolon_not_mem_argsText] using hname.not_mem (sep := ';') (by decide)
  have hblanks : ((i.line hex).filter fun ch => ch ≠ ' ') =
      i.mnemonic.toList ++ '(' :: (argsText hex i.operands).filter fun ch => ch ≠ ' ' := by
    rw [Instr.line, List.filter_append, hname.filter_eq, List.filter_cons_of_pos (by decide)]
  rw [assembleLine, cutAtChar_of_not_mem hcomment]
  simp only [hblanks, cutAtChar_append _ (hname.not_mem (sep := '(') (by decide)),
    asmArgs_argsText hex (operands_ne_nil i), Option.bind_some, String.ofList_toList]

/-- Settles O60: the line is cut into the command's call, which assembles to the command. -/
theorem assemblerLineOfACommandIsItsWord : Obligations.AssemblerLineOfACommandIsItsWord := by
  intro operandW hex i h
  rw [assembleLine_line, assembleCall_operands h, Option.map_some]

end Sys2Proof

namespace Sys2Proof.Machine

/-! ## One response per command (spec/30_encoding.md R58) -/

theorem lookupOrCreate_keeps_responses (a : Byte) (f : Int) (s : State) :
    (lookupOrCreate a f s).Ends (·.responses = s.responses) := by
  obtain ⟨-, h⟩ | ⟨c, -, h⟩ | ⟨-, -, -, h⟩ | ⟨i, -, -, -, -, h⟩ := lookupOrCreate_cases a f s <;>
    simp [h, State.created]

theorem bringUp_keeps_responses (a : Byte) (c : ChipConfig) (s : State) :
    (bringUp a c s).Ends (·.responses = s.responses) := by
  obtain ⟨-, h⟩ | ⟨i, -, -, h⟩ := bringUp_cases a c s <;> simp [h]

theorem writeChannel_keeps_responses (a : Byte) (p on off : Int) (s : State) :
    (writeChannel a p on off s).Ends (·.responses = s.responses) := by
  obtain ⟨-, h⟩ | ⟨i, -, -, h⟩ := writeChannel_cases a p on off s <;> simp [h]

theorem moveServo_keeps_responses (a : Byte) (c : ChipConfig) (k : Fin 16) (pos : Position) (pwm : Int) (s : State) :
    (moveServo a c k pos pwm s).Ends (·.responses = s.responses) := by
  obtain ⟨-, h⟩ | ⟨i, -, -, h⟩ := moveServo_cases a c k pos pwm s <;> simp [h]

/-- A command's own body appends no response before its end. -/
theorem bodyOf_keeps_responses (i : Instr) (found : Lookup) (s : State) :
    (bodyOf i found s).Ends (·.responses = s.responses) := by
  cases i with
  | init a f =>
    simp only [bodyOf]
    split
    · rfl
    · exact bringUp_keeps_responses ..
  | reset a =>
    simp only [bodyOf]
    split
    · rfl
    · exact bringUp_keeps_responses ..
  | setPinPulseRange pin on off a => exact ends_andThen (writeChannel_keeps_responses ..) fun _ _ h => h
  | setStandardServoAngle ch x a =>
    simp only [bodyOf]
    split <;> exact moveServo_keeps_responses ..
  | setContinuousServoSpeed ch x a =>
    simp only [bodyOf]
    split <;> exact moveServo_keeps_responses ..
  | setServoLimits ch mn mx md a => exact setSlot_responses s a _
  | getChipConfig a => rfl

/-- Settles O10: lookup-or-create and the command's own body append no response, and the command's end appends one. -/
theorem everyCommandAnswersExactlyOnce : Obligations.EveryCommandAnswersExactlyOnce := by
  intro i s t h
  rw [exec_eq, Host.Outcome.next.injEq] at h
  subst h
  have hkept : ((lookupOrCreate i.address (lookupFrequency i) s).andThen (bodyOf i)).Ends (·.responses = s.responses) :=
    ends_andThen (lookupOrCreate_keeps_responses ..) fun found s' hs =>
      ends_imp (bodyOf_keeps_responses i found s') fun _ hu => hu.trans hs
  obtain ⟨v, u, hr, hend⟩ | ⟨k, u, hr, hend⟩ := finish_responses
    ((lookupOrCreate i.address (lookupFrequency i) s).andThen (bodyOf i))
  all_goals
    rw [hr] at hkept
    exact ⟨_, hend.trans (congrArg (· ++ _) hkept)⟩

/-! ## The clamps (spec/00_scope.md R7) -/

theorem clamp_eq_max_min (x : Int) {lo hi : Int} (h : lo ≤ hi) : clamp x lo hi = max lo (min x hi) := by
  unfold clamp
  split
  · omega
  · split <;> omega

/-- Settles O36: each clamp is `clamp` at its ends, and its value fits the type that holds it. -/
theorem clampsGiveTheNearestValueInRange : Obligations.ClampsGiveTheNearestValueInRange := by
  intro x
  refine ⟨?_, ?_, ?_, clamp_eq_max_min x (by decide), clamp_eq_max_min x (by decide), ?_⟩
  · rw [clampFrequency, clamp_eq_max_min x (by decide)]
    omega
  · rw [channelIndex, clamp_eq_max_min x (by decide), Fin.val_ofNat]
    omega
  · rw [clampPin, clamp_eq_max_min x (by decide)]
    omega
  · rw [clampCount, clamp_eq_max_min x (by decide), BitVec.toNat_ofInt]
    omega

/-! ## An operand acts as its clamp (spec/30_encoding.md R51) -/

theorem clamp_clamped (x : Int) {lo hi : Int} (h : lo ≤ hi) : clamp (max lo (min x hi)) lo hi = clamp x lo hi := by
  rw [clamp_eq_max_min _ h, clamp_eq_max_min _ h]
  omega

theorem clampFrequency_clamped (x : Int) : clampFrequency (max 40 (min x 1000)) = clampFrequency x := by
  rw [clampFrequency, clamp_clamped x (by decide), clampFrequency]

theorem channelIndex_clamped (x : Int) : channelIndex (max 1 (min x 16)) = channelIndex x := by
  rw [channelIndex, clamp_clamped x (by decide), channelIndex]

theorem clampPin_clamped (x : Int) : clampPin (max 0 (min x 15)) = clampPin x := by
  rw [clampPin, clamp_clamped x (by decide), clampPin]

theorem clampAngle_clamped (x : Int) : clampAngle (max 0 (min x 180)) = clampAngle x :=
  clamp_clamped x (by decide)

theorem clampSpeed_clamped (x : Int) : clampSpeed (max (-100) (min x 100)) = clampSpeed x :=
  clamp_clamped x (by decide)

theorem clampCount_clamped (x : Int) : clampCount (max 0 (min x 4095)) = clampCount x := by
  rw [clampCount, clamp_clamped x (by decide), clampCount]

/-- Lookup-or-create reads its frequency through the clamp (R81, R128). -/
theorem lookupOrCreate_clamped (a : Byte) (f : Int) (s : State) :
    lookupOrCreate a (max 40 (min f 1000)) s = lookupOrCreate a f s := by
  simp only [lookupOrCreate, clampFrequency_clamped]

/-- The encoder reads its pin and its counts through their clamps (R72). -/
theorem writeChannel_clamped (a : Byte) (p on off : Int) (s : State) :
    writeChannel a (max 0 (min p 15)) (max 0 (min on 4095)) (max 0 (min off 4095)) s = writeChannel a p on off s := by
  simp only [writeChannel, channelScript, clampPin_clamped, clampCount_clamped]

/-- Settles O37: the meanings read these operands through their clamps alone. -/
theorem operandsActAsTheirClamps : Obligations.OperandsActAsTheirClamps := by
  refine fun x y z mn mx md a s => ⟨?_, ?_, ?_, ?_, ?_⟩
  · simp only [exec, execInit, lookupOrCreate_clamped, clampFrequency_clamped]
  · simp only [exec, execSetPinPulseRange, writeChannel_clamped]
  · simp only [exec, execSetStandardServoAngle, channelIndex_clamped, clampAngle_clamped]
  · simp only [exec, execSetContinuousServoSpeed, channelIndex_clamped, clampSpeed_clamped]
  · simp only [exec, execSetServoLimits, channelIndex_clamped]

/-! ## The copy of a slot (spec/30_encoding.md R58) -/

/-- Settles O22: the slot of `a` is registered, so its phase is the stored one, and entry `k` of the copy shows entry `k`
of the slot. -/
theorem configCopyShowsTheSlot : Obligations.ConfigCopyShowsTheSlot := by
  intro s a c k hc
  refine ⟨rfl, rfl, ?_, ?_⟩
  · cases hp : c.phase <;> simp only [configView, State.phase, hc, hp]
  · simp only [configView, Fin.getElem_fin, Vector.getElem_ofFn, servoView]
    cases (c.servo k).position <;> rfl

end Sys2Proof.Machine
end

section
/-! The bytes of a count, the encoder's four writes and where they are cut short: the statements of
spec/40_register_protocol.md. -/

namespace Sys2Proof.Machine

/-! ## The two bytes of a count (spec/40_register_protocol.md R71, R72) -/

theorem lowByte_toNat (n : Count) : (lowByte n).toNat = n.toNat % 256 := by
  simp [lowByte, BitVec.extractLsb'_toNat]

theorem highByte_toNat (n : Count) : (highByte n).toNat = n.toNat / 256 := by
  rw [highByte, BitVec.toNat_setWidth_of_le (by decide), BitVec.extractLsb'_toNat, Nat.shiftRight_eq_div_pow]
  exact Nat.mod_eq_of_lt (Nat.div_lt_of_lt_mul n.isLt)

/-- A count is in range, so the clamp leaves it alone (R72). -/
theorem clampCount_toNat (n : Count) : clampCount n.toNat = n := by
  have hn := n.isLt
  rw [clampCount, clamp_eq_max_min _ (by decide), show max 0 (min (n.toNat : Int) 4095) = n.toNat by omega,
    BitVec.ofInt_natCast, BitVec.ofNat_toNat, BitVec.setWidth_eq]

/-- Settles O33: the bytes are remainder and quotient by 256. -/
theorem countSplitsIntoLowAndHighByte : Obligations.CountSplitsIntoLowAndHighByte := by
  intro n
  refine ⟨?_, highByte_toNat_le n, lowByte_toNat n, clampCount_toNat n⟩
  rw [highByte_toNat, lowByte_toNat]
  exact Nat.div_add_mod n.toNat 256

/-! ## The end of a command that performs bus events (spec/60_exceptions.md R146) -/

/-- A procedure that took `n` answers and appended `events`, followed by its response. -/
theorem respond_useAnswers (s : State) (n : Nat) (events : List BusEvent) (r : Response) :
    ({ s.useAnswers n with trace := s.trace ++ events } : State).respond r = s.ended n events r := by
  simp [State.respond, State.ended]

/-- A procedure that took `n` answers and appended `events`, followed by the taking of the error it raised. -/
theorem takeError_useAnswers (s : State) (n : Nat) (events : List BusEvent) (kind : ErrorKind) :
    ({ s.useAnswers n with trace := s.trace ++ events } : State).takeError kind = s.failed n events kind := by
  simp [State.takeError, State.respond, State.failed]

/-! ## `setPinPulseRange` on a registered slot (spec/40_register_protocol.md R70, R73, R74) -/

/-- Settles O34: on a registered slot the command is the encoder and then its response. -/
theorem setPinPulseRangeWritesTheChannelSlot : Obligations.SetPinPulseRangeWritesTheChannelSlot := by
  intro pin on off a c s hc hs
  rw [exec_of_hit hc, bodyOf, writeChannel_of_allSucceed a pin on off s hs, andThen_done, finish_done,
    respond_useAnswers]

/-- All four events of a channel update are writes, so cut at write `i` the first `i + 1` are left (R74). -/
theorem cutTrace_channelEvents_length {i : Nat} (hi : i < 4) (a slot : Byte) (on off : Count) :
    (cutTrace i (channelEvents a slot on off)).length = i + 1 := by
  match i, hi with
  | 0, _ | 1, _ | 2, _ | 3, _ => rfl

/-- Settles O35: the encoder raises at the failing write, and the command takes that error. -/
theorem failedChannelWriteIsTorn : Obligations.FailedChannelWriteIsTorn := by
  intro pin on off a c s k hc hk hs
  refine ⟨?_, cutTrace_channelEvents_length hk ..⟩
  rw [exec_of_hit hc, bodyOf, writeChannel_of_failsAt a pin on off k s hk hs, andThen_raised, finish_raised,
    takeError_useAnswers]

/-! ## Motion commands on a registered slot (spec/43_pulse_math.md R104, R105, R106) -/

section
variable {s : State} {a : Byte} {c : ChipConfig} {ch x : Int}

theorem exec_setStandardServoAngle_of_ordered (hc : s.slot a = some c)
    (ho : ordered (c.servo (channelIndex ch)) = true) :
    exec (.setStandardServoAngle ch x a) s = .next (moveServo a c (channelIndex ch) (.standard (clampAngle x))
      (standardPwm s.params c.frequency (c.servo (channelIndex ch)) (clampAngle x)) s).finish := by
  rw [exec_of_hit hc, bodyOf, if_pos ho]

/-- With a broken calibration order the count is drawn (R104). -/
theorem exec_setStandardServoAngle_of_broken (hc : s.slot a = some c)
    (ho : ordered (c.servo (channelIndex ch)) = false) :
    exec (.setStandardServoAngle ch x a) s = .next
      (moveServo a c (channelIndex ch) (.standard (clampAngle x)) s.drawCount.toNat s.dropDraw).finish := by
  rw [exec_of_hit hc, bodyOf, if_neg (Bool.eq_false_iff.1 ho)]

/-- At speed 0 the count is the middle one whatever the order, so none is drawn (R104). -/
theorem exec_setContinuousServoSpeed_of_mapped (hc : s.slot a = some c)
    (ho : clampSpeed x = 0 ∨ ordered (c.servo (channelIndex ch)) = true) :
    exec (.setContinuousServoSpeed ch x a) s = .next (moveServo a c (channelIndex ch) (.continuous (clampSpeed x))
      (continuousPwm s.params c.frequency (c.servo (channelIndex ch)) (clampSpeed x)) s).finish := by
  rw [exec_of_hit hc, bodyOf, if_pos ho]

/-- With a broken calibration order the count of a speed other than 0 is drawn (R104). -/
theorem exec_setContinuousServoSpeed_of_broken (hc : s.slot a = some c)
    (ho : ordered (c.servo (channelIndex ch)) = false) (hx : clampSpeed x ≠ 0) :
    exec (.setContinuousServoSpeed ch x a) s = .next
      (moveServo a c (channelIndex ch) (.continuous (clampSpeed x)) s.drawCount.toNat s.dropDraw).finish := by
  rw [exec_of_hit hc, bodyOf, if_neg (not_or_intro hx (Bool.eq_false_iff.1 ho))]

end

/-- The position is stored before the first write and stays when one of them fails (R105, R146). -/
theorem finish_moveServo_of_failsAt {a : Byte} {c : ChipConfig} {k : Fin 16} {pos : Position} {pwm : Int} {i : Nat}
    {s : State} (hi : i < 4) (hs : s.failsAt i) :
    (moveServo a c k pos pwm s).finish = (s.setSlot a (c.setServo k { c.servo k with position := pos })).failed (i + 1)
      (cutTrace i (channelEvents a (slotBase (c.servo k).pinNumber.toNat) 0 (clampCount pwm))) .busError := by
  rw [moveServo_of_failsAt a c k pos pwm i s hi hs, finish_raised, ← takeError_useAnswers, useAnswers_setSlot,
    setSlot_trace, clampPin_natCast (c.servo k).pinNumber.isLt, show clampCount 0 = 0 by decide]

/-- Settles O43: each motion command ends in the move, at the mapped count or at a drawn one, and the move stores the
position and fails in the encoder. -/
theorem failedMotionKeepsTheNewPosition : Obligations.FailedMotionKeepsTheNewPosition := by
  intro ch x a c s i hc hi k sv standard continuous torn
  refine ⟨fun ho hs => ?_, fun ho hs => ?_, fun ho hs => ⟨⟨clampCount s.drawCount.toNat, ?_⟩,
    fun hx => ⟨clampCount s.drawCount.toNat, ?_⟩⟩, fun n => cutTrace_channelEvents_length hi ..⟩
  · rw [exec_setStandardServoAngle_of_ordered hc ho, finish_moveServo_of_failsAt hi hs]
  · rw [exec_setContinuousServoSpeed_of_mapped hc ho, finish_moveServo_of_failsAt hi hs]
  · rw [exec_setStandardServoAngle_of_broken hc ho, finish_moveServo_of_failsAt hi hs]
  · rw [exec_setContinuousServoSpeed_of_broken hc ho hx, finish_moveServo_of_failsAt hi hs]

/-! ## Commands that write no slot or no register (spec/41_registry.md R84, spec/42_calibration.md R92) -/

theorem writeChannel_keeps_cfg (a : Byte) (p on off : Int) (s : State) :
    (writeChannel a p on off s).Ends (·.cfg = s.cfg) := by
  obtain ⟨-, h⟩ | ⟨i, -, -, h⟩ := writeChannel_cases a p on off s <;> simp [h]

/-- The chip image is read from the trace alone (R48). -/
theorem image_congr {s t : State} (h : t.trace = s.trace) (b r : Byte) : t.image b r = s.image b r := by
  rw [State.image, State.image, h]

/-- Settles O50: the encoder stores nothing, and the bodies of the other two commands perform no bus event. -/
theorem readersLeaveARegisteredSlotAlone : Obligations.ReadersLeaveARegisteredSlotAlone := by
  intro s t a c hc
  refine ⟨fun pin on off h => ?_, fun h => ?_, fun ch mn mx md h => ?_⟩
  all_goals
    rw [exec_of_hit hc, Host.Outcome.next.injEq, bodyOf] at h
    subst h
  · exact finish_of_ends (P := (·.cfg = s.cfg)) (ends_andThen (writeChannel_keeps_cfg ..) fun _ _ hu => hu)
      (fun _ _ hu => hu) (fun _ _ hu => hu)
  · exact ⟨rfl, rfl, rfl, rfl, rfl, image_congr rfl⟩
  · rw [finish_done]
    exact ⟨by simp, by simp, by simp, by simp, image_congr (by simp)⟩

end Sys2Proof.Machine
end

section
/-! Creation and lookup in the registry: the statements of spec/41_registry.md, and which errors a command can answer
(spec/60_exceptions.md R141, R143). -/

namespace Sys2Proof.Machine

/-! ## The errors a command answers (spec/41_registry.md R83, spec/60_exceptions.md R141, R143) -/

/-- A procedure whose only error, raised or answered, is the bus error (R143). -/
def Run.OnlyBusError : Run Response → Prop
  | .done v _ => ∀ kind, v ≠ .err kind
  | .raised kind _ => kind = .busError

theorem bringUp_onlyBusError (a : Byte) (c : ChipConfig) (s : State) : (bringUp a c s).OnlyBusError := by
  obtain ⟨-, h⟩ | ⟨i, -, -, h⟩ := bringUp_cases a c s <;> rw [h]
  · exact nofun
  · rfl

theorem moveServo_onlyBusError (a : Byte) (c : ChipConfig) (k : Fin 16) (pos : Position) (pwm : Int) (s : State) :
    (moveServo a c k pos pwm s).OnlyBusError := by
  obtain ⟨-, h⟩ | ⟨i, -, -, h⟩ := moveServo_cases a c k pos pwm s <;> rw [h]
  · exact nofun
  · rfl

/-- After its lookup a command can fail at the bus alone. -/
theorem bodyOf_onlyBusError (i : Instr) (found : Lookup) (s : State) : (bodyOf i found s).OnlyBusError := by
  cases i with
  | init a f =>
    simp only [bodyOf]
    split
    · exact nofun
    · exact bringUp_onlyBusError ..
  | reset a =>
    simp only [bodyOf]
    split
    · exact nofun
    · exact bringUp_onlyBusError ..
  | setPinPulseRange pin on off a =>
    obtain ⟨-, h⟩ | ⟨j, -, -, h⟩ := writeChannel_cases a pin on off s <;> rw [bodyOf, h]
    · exact nofun
    · rfl
  | setStandardServoAngle ch x a =>
    simp only [bodyOf]
    split <;> exact moveServo_onlyBusError ..
  | setContinuousServoSpeed ch x a =>
    simp only [bodyOf]
    split <;> exact moveServo_onlyBusError ..
  | setServoLimits ch mn mx md a => exact nofun
  | getChipConfig a => exact nofun

/-- At a valid address the lookup too can fail at the bus alone. -/
theorem lookupOrCreate_andThen_bodyOf_onlyBusError {i : Instr} (s : State) (hv : validAddress i.address = true) :
    ((lookupOrCreate i.address (lookupFrequency i) s).andThen (bodyOf i)).OnlyBusError := by
  obtain ⟨hv', -⟩ | ⟨c, -, h⟩ | ⟨-, -, -, h⟩ | ⟨j, -, -, -, -, h⟩ :=
    lookupOrCreate_cases i.address (lookupFrequency i) s
  · rw [hv] at hv'; cases hv'
  · rw [h]; exact bodyOf_onlyBusError ..
  · rw [h]; exact bodyOf_onlyBusError ..
  · rw [h]; rfl

/-- An error that ends such a procedure's responses is the bus error. -/
theorem Run.OnlyBusError.eq_busError {r : Run Response} (hr : r.OnlyBusError) {earlier : List Response} {kind : ErrorKind}
    (h : r.finish.responses = earlier ++ [.err kind]) : kind = .busError := by
  cases r with
  | done v u =>
    obtain ⟨-, hlast⟩ := List.append_inj' h rfl
    exact absurd (List.head_eq_of_cons_eq hlast) (hr kind)
  | raised k u =>
    obtain ⟨-, hlast⟩ := List.append_inj' h rfl
    cases hlast
    exact hr

/-- Settles O12: the lookup checks the address before anything else, and at a valid one every error is the bus error. -/
theorem invalidAddressIsCheckedFirst : Obligations.InvalidAddressIsCheckedFirst := by
  refine ⟨fun i s ha => ?_, fun i s t hlo hhi h hr => ?_⟩
  · have hv : validAddress i.address = false :=
      Bool.eq_false_iff.2 fun hv => by have := (validAddress_iff _).1 hv; omega
    exact exec_of_invalid s hv
  · rw [exec_eq, Host.Outcome.next.injEq] at h
    subst h
    have hbus := lookupOrCreate_andThen_bodyOf_onlyBusError s ((validAddress_iff _).2 ⟨hlo, hhi⟩)
    exact absurd (hbus.eq_busError hr) (by decide)

/-! ## Creation (spec/41_registry.md R81, R82, R85) -/

/-- The created slot is registered when the command goes on. -/
theorem created_slot (s : State) {a : Byte} (f : Nat) (hv : validAddress a = true) :
    (s.created a f).slot a = some (defaultConfig f) :=
  setSlot_slot_same _ hv

/-- A command on an unregistered address goes on in the state its creation leaves. -/
theorem exec_of_miss {i : Instr} {s : State} (hv : validAddress i.address = true) (hc : s.slot i.address = none)
    (hs : s.allSucceed 8) :
    exec i s = .next (bodyOf i { created := true, config := defaultConfig i.creationFrequency }
      (s.created i.address i.creationFrequency)).finish := by
  rw [exec_eq, lookupOrCreate_of_miss _ s hv hc hs, andThen_done, clampFrequency_lookupFrequency]

theorem creationFrequency_of_ne_init {i : Instr} (hi : ∀ a f, i ≠ .init a f) : i.creationFrequency = 50 := by
  cases i with
  | init a f => exact absurd rfl (hi a f)
  | _ => rfl

/-- Only `init` and `reset` ask whether the lookup created the slot (R124, R125). -/
theorem bodyOf_created {i : Instr} (hinit : ∀ a f, i ≠ .init a f) (hreset : ∀ a, i ≠ .reset a) (c : ChipConfig)
    (s : State) : bodyOf i { created := true, config := c } s = bodyOf i { created := false, config := c } s := by
  cases i with
  | init a f => exact absurd rfl (hinit a f)
  | reset a => exact absurd rfl (hreset a)
  | _ => rfl

/-- Settles O19: after creation the command runs the same body, on the same content, as it does after a hit. -/
theorem missCreatesTheSlotThenRunsTheCommand : Obligations.MissCreatesTheSlotThenRunsTheCommand := by
  intro i s hinit hreset hv hc hs
  calc exec i s
      = .next (bodyOf i { created := true, config := defaultConfig 50 } (s.created i.address 50)).finish := by
        rw [exec_of_miss hv hc hs, creationFrequency_of_ne_init hinit]
    _ = .next (bodyOf i { created := false, config := defaultConfig 50 } (s.created i.address 50)).finish := by
        rw [bodyOf_created hinit hreset]
    _ = exec i (s.created i.address 50) := (exec_of_hit (created_slot s 50 hv)).symm

theorem failed_cfg (s : State) (n : Nat) (events : List BusEvent) (kind : ErrorKind) :
    (s.failed n events kind).cfg = s.cfg := by
  simp [State.failed]

/-- Settles O20: the lookup raises at the failing write, before it stores the slot, and the command takes that error. -/
theorem failedCreationStoresNothing : Obligations.FailedCreationStoresNothing := by
  intro i s k hv hc hk hs
  refine ⟨?_, failed_cfg ..⟩
  rw [exec_eq, lookupOrCreate_of_failure _ k s hv hc hk hs, andThen_raised, finish_raised,
    clampFrequency_lookupFrequency, ← takeError_useAnswers]
  -- Taking the error resets `seq`, which the aborted sequence has reset already (R123, R146).
  rfl

/-- Settles O18: the content is the default one of every entry. -/
theorem defaultConfigHasTheDefaults : Obligations.DefaultConfigHasTheDefaults :=
  fun f k => ⟨rfl, rfl, defaultConfig_servo f k⟩

/-! ## `getChipConfig` (spec/41_registry.md R84, R86) -/

/-- Settles O21: on a hit the body is the answer alone. -/
theorem getChipConfigAnswersTheSlot : Obligations.GetChipConfigAnswersTheSlot := by
  intro a c s hc
  rw [exec_of_hit hc, bodyOf, finish_done]

/-- A configuration that `getChipConfig` answers, creating or not, is the copy of the slot it leaves. -/
theorem slot_of_getChipConfig {a : Byte} {s t : State} {view : ConfigView} (h : exec (.getChipConfig a) s = .next t)
    (hr : t.responses = s.responses ++ [.okConfig view]) : ∃ c, t.slot a = some c ∧ configView a c = view := by
  rw [exec_eq, Host.Outcome.next.injEq] at h
  subst h
  obtain ⟨-, hl⟩ | ⟨c, hc, hl⟩ | ⟨hv, -, -, hl⟩ | ⟨j, -, -, -, -, hl⟩ := lookupOrCreate_cases a freqDefault s
  all_goals
    simp only [Instr.address, lookupFrequency, hl, andThen_done, andThen_raised, finish_raised, bodyOf, finish_done] at hr ⊢
    obtain ⟨-, hlast⟩ := List.append_inj' hr rfl
    -- The two failing lookups answer an error, so only a hit and a creation remain.
    cases hlast
  · exact ⟨c, hc, rfl⟩
  · exact ⟨_, created_slot s _ hv, rfl⟩

/-- Settles O23: the first call leaves the slot registered with the content it answered, so the second is a hit on it. -/
theorem getChipConfigTwiceAnswersTheSame : Obligations.GetChipConfigTwiceAnswersTheSame := by
  intro a s t view h hr
  obtain ⟨c, hc, rfl⟩ := slot_of_getChipConfig h hr
  exact getChipConfigAnswersTheSlot a c t hc

end Sys2Proof.Machine
end

section
/-! The midpoint and the bounds that `setServoLimits` stores: the statements of spec/42_calibration.md. -/

namespace Sys2Proof.Machine

/-! ## The midpoint (spec/42_calibration.md R91) -/

theorem midpointOffset_eq_ediv (mn mx : Int) : midpointOffset mn mx = (mx - mn) / 2 + mn := by
  rw [midpointOffset, fdiv, Int.fdiv_eq_ediv_of_nonneg _ (by decide)]

/-- The midpoint is half the sum of the bounds, rounded down. -/
theorem midpointOffset_rounds_down (mn mx : Int) :
    2 * midpointOffset mn mx ≤ mn + mx ∧ mn + mx ≤ 2 * midpointOffset mn mx + 1 := by
  rw [midpointOffset_eq_ediv]
  omega

theorem midpointOffset_nonneg (mn mx : Nat) : 0 ≤ midpointOffset mn mx := by
  have := midpointOffset_rounds_down mn mx
  omega

/-- Settles O39: twice the midpoint is the sum of the bounds or one less, which places it between them. -/
theorem midpointLiesBetweenTheBounds : Obligations.MidpointLiesBetweenTheBounds := by
  intro mn mx m
  obtain ⟨hle, hge⟩ : 2 * m ≤ mn + mx ∧ (mn : Int) + mx ≤ 2 * m + 1 := midpointOffset_rounds_down mn mx
  have hnonneg : 0 ≤ m := midpointOffset_nonneg mn mx
  refine ⟨⟨hle, hge⟩, fun _ => by omega, fun _ => by omega, fun operandW hmn hmx => ?_, fun sv => ?_⟩
  · have hfits : m.toNat < 2 ^ operandW := midpointOffset_toNat_lt hmn hmx
    exact_mod_cast (Int.toNat_lt hnonneg).1 hfits
  · exact Int.toNat_of_nonneg hnonneg

/-! ## `setServoLimits` on a registered slot (spec/42_calibration.md R90, R92, R93) -/

/-- The middle bound is the given one, or the midpoint where none is given (R90, R91). -/
theorem setOffsets_midOffset (sv : ServoConfig) (mn mx : Nat) (md : Option Nat) :
    (setOffsets sv mn mx md).midOffset = md.getD (midpointOffset mn mx).toNat := by
  cases md <;> rfl

@[simp] theorem setOffsets_pinNumber (sv : ServoConfig) (mn mx : Nat) (md : Option Nat) :
    (setOffsets sv mn mx md).pinNumber = sv.pinNumber := rfl

@[simp] theorem setOffsets_position (sv : ServoConfig) (mn mx : Nat) (md : Option Nat) :
    (setOffsets sv mn mx md).position = sv.position := rfl

theorem exec_setServoLimits_of_hit {s : State} {a : Byte} {c : ChipConfig} (hc : s.slot a = some c) (ch : Int)
    (mn mx : Nat) (md : Option Nat) :
    exec (.setServoLimits ch mn mx md a) s = .next ((s.setSlot a (c.setServo (channelIndex ch)
      (setOffsets (c.servo (channelIndex ch)) mn mx md))).respond .ok) := by
  rw [exec_of_hit hc, bodyOf, finish_done]

/-- Settles O38: the body stores the bounds of one entry and answers. -/
theorem setServoLimitsStoresTheBounds : Obligations.SetServoLimitsStoresTheBounds := by
  intro ch mn mx md a c s hc
  rw [exec_setServoLimits_of_hit hc, ← midpointOffset_eq_ediv, ← setOffsets_midOffset (c.servo (channelIndex ch))]
  rfl

/-- Settles O52: the slot holds its old content with the three bounds of one entry written. -/
theorem setServoLimitsFrame : Obligations.SetServoLimitsFrame := by
  intro s t a c ch mn mx md hc h
  rw [exec_setServoLimits_of_hit hc, Host.Outcome.next.injEq] at h
  subst h
  exact ⟨_, setSlot_slot_same _ (validAddress_of_slot hc), rfl, rfl, fun j hj => setServo_servo_other c _ hj,
    by rw [setServo_servo_same, setOffsets_pinNumber], by rw [setServo_servo_same, setOffsets_position]⟩

end Sys2Proof.Machine
end

section
/-! The two mappings of the pulse math and the motion commands on a registered slot: the statements of
spec/43_pulse_math.md. -/

namespace Sys2Proof.Machine

/-! ## Floored shares (spec/00_scope.md R7, spec/92_eei_decisions.md D7) -/

theorem fdiv_eq_ediv (x : Int) {y : Int} (hy : 0 ≤ y) : fdiv x y = x / y := Int.fdiv_eq_ediv_of_nonneg x hy

/-- The floored `x`-th of `n` parts of a width grows with `x`. -/
theorem share_mono {x y w n : Int} (hn : 0 < n) (hw : 0 ≤ w) (h : x ≤ y) : x * w / n ≤ y * w / n :=
  Int.ediv_le_ediv hn (mul_le_mul_of_nonneg_right h hw)

/-! ## The three counts (spec/43_pulse_math.md R100, R101, R103) -/

theorem frequencyOffset_eq (foDiv f t : Nat) : frequencyOffset foDiv f t = ((t * 4096 * f / foDiv : Nat) : Int) := by
  rw [frequencyOffset, fdiv_eq_ediv _ (Int.natCast_nonneg foDiv)]
  push_cast
  rfl

theorem frequencyOffset_mono (foDiv f : Nat) {t u : Nat} (h : t ≤ u) :
    frequencyOffset foDiv f t ≤ frequencyOffset foDiv f u := by
  rw [frequencyOffset_eq, frequencyOffset_eq]
  exact_mod_cast Nat.div_le_div_right (Nat.mul_le_mul_right f (Nat.mul_le_mul_right 4096 h))

theorem ordered_iff {sv : ServoConfig} :
    ordered sv = true ↔ sv.minOffset ≤ sv.midOffset ∧ sv.midOffset ≤ sv.maxOffset := by
  simp [ordered]

theorem startCount_nonneg (p : Params) (f : Nat) (sv : ServoConfig) : 0 ≤ startCount p f sv := by
  rw [startCount, frequencyOffset_eq]
  exact Int.natCast_nonneg _

section
variable (p : Params) (f : Nat) {sv : ServoConfig} (ho : ordered sv = true)
include ho

/-- An ordered calibration has ordered counts (R101). -/
theorem startCount_le_midCount : startCount p f sv ≤ midCount p f sv :=
  frequencyOffset_mono p.foDiv f (ordered_iff.1 ho).1

theorem midCount_le_endCount : midCount p f sv ≤ endCount p f sv :=
  frequencyOffset_mono p.foDiv f (ordered_iff.1 ho).2

theorem startCount_le_endCount : startCount p f sv ≤ endCount p f sv :=
  (startCount_le_midCount p f ho).trans (midCount_le_endCount p f ho)

/-! ## The standard mapping (spec/43_pulse_math.md R102) -/

/-- The clamp to the two outer counts never changes the value: the share of the spread lies between none and all of it. -/
theorem standardPwm_eq {angle : Int} (h0 : 0 ≤ angle) (h180 : angle ≤ 180) :
    standardPwm p f sv angle = startCount p f sv + angle * (endCount p f sv - startCount p f sv) / 180 := by
  have hle := startCount_le_endCount p f ho
  have hspread := sub_nonneg.2 hle
  have hnone := share_mono (n := 180) (by decide) hspread h0
  have hall := share_mono (n := 180) (by decide) hspread h180
  rw [standardPwm, fdiv_eq_ediv _ (by decide), clamp_eq_max_min _ hle]
  omega

theorem standardPwm_mono {x y : Int} (h0 : 0 ≤ x) (hxy : x ≤ y) (h180 : y ≤ 180) :
    standardPwm p f sv x ≤ standardPwm p f sv y := by
  rw [standardPwm_eq p f ho h0 (hxy.trans h180), standardPwm_eq p f ho (h0.trans hxy) h180]
  exact add_le_add_right (share_mono (by decide) (sub_nonneg.2 (startCount_le_endCount p f ho)) hxy) _

theorem standardPwm_zero : standardPwm p f sv 0 = startCount p f sv := by
  rw [standardPwm_eq p f ho (by decide) (by decide)]
  omega

theorem standardPwm_180 : standardPwm p f sv 180 = endCount p f sv := by
  rw [standardPwm_eq p f ho (by decide) (by decide)]
  omega

end

/-! ## The continuous mapping (spec/43_pulse_math.md R107) -/

/-- Speed 0 is forward by none of the spread. -/
theorem continuousPwm_eq (p : Params) (f : Nat) (sv : ServoConfig) (speed : Int) :
    continuousPwm p f sv speed =
      if 0 ≤ speed then midCount p f sv + speed * (endCount p f sv - midCount p f sv) / 100
      else midCount p f sv - -speed * (midCount p f sv - startCount p f sv) / 100 := by
  rw [continuousPwm, fdiv_eq_ediv _ (by decide), fdiv_eq_ediv _ (by decide)]
  obtain rfl | hne := eq_or_ne speed 0
  · simp
  · simp only [if_neg hne, show 0 < speed ↔ 0 ≤ speed by omega]

theorem continuousPwm_zero (p : Params) (f : Nat) (sv : ServoConfig) : continuousPwm p f sv 0 = midCount p f sv :=
  if_pos rfl

theorem continuousPwm_100 (p : Params) (f : Nat) (sv : ServoConfig) : continuousPwm p f sv 100 = endCount p f sv := by
  rw [continuousPwm_eq, if_pos (by decide)]
  omega

theorem continuousPwm_neg_100 (p : Params) (f : Nat) (sv : ServoConfig) :
    continuousPwm p f sv (-100) = startCount p f sv := by
  rw [continuousPwm_eq, if_neg (by decide)]
  omega

/-- Either side of speed 0 is monotone, and they meet there at the middle count. -/
theorem continuousPwm_mono (p : Params) (f : Nat) {sv : ServoConfig} (ho : ordered sv = true) {x y : Int} (h : x ≤ y) :
    continuousPwm p f sv x ≤ continuousPwm p f sv y := by
  have hforward {x y : Int} (h : x ≤ y) :=
    share_mono (n := 100) (by decide) (sub_nonneg.2 (midCount_le_endCount p f ho)) h
  have hreverse {x y : Int} (h : x ≤ y) :=
    share_mono (n := 100) (by decide) (sub_nonneg.2 (startCount_le_midCount p f ho)) h
  rw [continuousPwm_eq, continuousPwm_eq]
  obtain hx | hx := le_or_gt 0 x
  · rw [if_pos hx, if_pos (hx.trans h)]
    exact add_le_add_right (hforward h) _
  · rw [if_neg hx.not_ge]
    obtain hy | hy := le_or_gt 0 y
    · rw [if_pos hy]
      have hup := hforward hy
      have hdown := hreverse (show 0 ≤ -x by omega)
      omega
    · rw [if_neg hy.not_ge]
      exact sub_le_sub_left (hreverse (neg_le_neg h)) _

/-- Settles O45: the two ends, the middle and the monotonicity of the mapping. -/
theorem speedSweepIsMonotone : Obligations.SpeedSweepIsMonotone :=
  fun p f sv ho => ⟨continuousPwm_neg_100 p f sv, continuousPwm_zero p f sv, continuousPwm_100 p f sv,
    fun _ _ _ hxy _ => continuousPwm_mono p f ho hxy⟩

/-! ## The sweep of the angle operand (spec/43_pulse_math.md R108) -/

theorem clampAngle_mem (x : Int) : 0 ≤ clampAngle x ∧ clampAngle x ≤ 180 := clamp_mem x (by decide)

theorem clampAngle_eq (x : Int) : clampAngle x = max 0 (min x 180) := clamp_eq_max_min x (by decide)

theorem clampAngle_mono {x y : Int} (h : x ≤ y) : clampAngle x ≤ clampAngle y := by
  rw [clampAngle_eq, clampAngle_eq]
  omega

theorem clampCount_toNat_eq (n : Int) : ((clampCount n).toNat : Int) = max 0 (min n 4095) := by
  obtain ⟨-, -, -, -, -, h⟩ := clampsGiveTheNearestValueInRange n
  exact h

theorem clampCount_toNat_mono {m n : Int} (h : m ≤ n) : (clampCount m).toNat ≤ (clampCount n).toNat := by
  have hm := clampCount_toNat_eq m
  have hn := clampCount_toNat_eq n
  omega

/-- Settles O44: the clamp of the operand, the mapping and the clamp of the count are each monotone, and outside 0..180 the
operand acts as the nearest end. -/
theorem angleSweepIsMonotone : Obligations.AngleSweepIsMonotone := by
  intro p f sv x y ho
  refine ⟨fun hxy => ?_, fun hx => ?_, fun hx => ?_⟩
  · exact clampCount_toNat_mono (standardPwm_mono p f ho (clampAngle_mem x).1 (clampAngle_mono hxy) (clampAngle_mem y).2)
  · rw [show clampAngle x = 0 by rw [clampAngle_eq]; omega, standardPwm_zero p f ho]
  · rw [show clampAngle x = 180 by rw [clampAngle_eq]; omega, standardPwm_180 p f ho]

/-! ## The sizes of the intermediates (spec/43_pulse_math.md R109) -/

/-- The largest product is the one at offset 65535 and 1000 Hz. -/
theorem offset_product_le {f t : Nat} (ht : t < 2 ^ 16) (hf : f ≤ 1000) : t * 4096 * f ≤ 65535 * 4096 * 1000 :=
  Nat.mul_le_mul (Nat.mul_le_mul_right 4096 (Nat.le_of_lt_succ ht)) hf

/-- The largest count is the one at offset 65535 and 1000 Hz. -/
theorem endCount_le {p : Params} {f : Nat} {sv : ServoConfig} (hp : p.foDiv = 1000) (ht : sv.maxOffset < 2 ^ 16)
    (hf : f ≤ 1000) : endCount p f sv ≤ 65535 * 4096 := by
  rw [endCount, frequencyOffset_eq, hp]
  exact_mod_cast Nat.div_le_of_le_mul ((offset_product_le ht hf).trans_eq (by decide))

/-- Settles O46: every count lies between 0 and the largest end count, and both mappings between the outer counts. -/
theorem intermediatesFitTheirStatedSizes : Obligations.IntermediatesFitTheirStatedSizes := by
  intro p f sv angle speed hp _ hf ht ho hangle0 hangle180 hspeed0 hspeed100
  have hproduct := offset_product_le ht hf
  have hend := endCount_le hp ht hf
  have hstart := startCount_nonneg p f sv
  have hstandard_lo := standardPwm_zero p f ho ▸ standardPwm_mono p f ho le_rfl hangle0 hangle180
  have hstandard_hi := standardPwm_180 p f ho ▸ standardPwm_mono p f ho hangle0 hangle180 le_rfl
  have hcontinuous_lo := continuousPwm_neg_100 p f sv ▸ continuousPwm_mono p f ho hspeed0
  have hcontinuous_hi := continuousPwm_100 p f sv ▸ continuousPwm_mono p f ho hspeed100
  have hspread0 : 0 ≤ endCount p f sv - startCount p f sv := sub_nonneg.2 (startCount_le_endCount p f ho)
  have hspread : endCount p f sv - startCount p f sv ≤ 65535 * 4096 := by omega
  have hangle := mul_le_mul hangle180 hspread hspread0 (by decide)
  have hspeed := mul_le_mul (abs_le.2 ⟨hspeed0, hspeed100⟩) hspread hspread0 (by decide)
  exact ⟨by omega, by omega, hstart, startCount_le_midCount p f ho, midCount_le_endCount p f ho,
    mul_nonneg hangle0 hspread0, by omega, by omega, by omega, by omega, by omega, by omega⟩

/-! ## A completed motion command (spec/43_pulse_math.md R104, R105, R106) -/

/-- The move stores the position, writes the count to the channel's pin and answers. -/
theorem finish_moveServo_of_allSucceed {a : Byte} {c : ChipConfig} {k : Fin 16} {pos : Position} {pwm : Int} {s : State}
    (hs : s.allSucceed 4) :
    (moveServo a c k pos pwm s).finish = (s.setSlot a (c.setServo k { c.servo k with position := pos })).ended 4
      (channelEvents a (slotBase (c.servo k).pinNumber.toNat) 0 (clampCount pwm)) .ok := by
  rw [moveServo_of_allSucceed a c k pos pwm s hs, finish_done, ← respond_useAnswers, useAnswers_setSlot,
    setSlot_trace, clampPin_natCast (c.servo k).pinNumber.isLt, show clampCount 0 = 0 by decide]

/-- Settles O40: on an ordered calibration the command is the move at the mapped count. -/
theorem standardAngleWritesTheMappedCount : Obligations.StandardAngleWritesTheMappedCount := by
  intro ch x a c s hc hs k sv angle start stop hmin hmax
  have ho : ordered sv = true := ordered_iff.2 ⟨hmin, hmax⟩
  obtain ⟨h0, h180⟩ := clampAngle_mem x
  rw [exec_setStandardServoAngle_of_ordered hc ho, finish_moveServo_of_allSucceed hs, standardPwm_eq _ _ ho h0 h180,
    startCount, endCount, frequencyOffset_eq, frequencyOffset_eq]

/-- Settles O41: at speed 0 or on an ordered calibration the command is the move at the mapped count. -/
theorem continuousSpeedWritesTheMappedCount : Obligations.ContinuousSpeedWritesTheMappedCount := by
  intro ch x a c s hc hs k sv speed start mid stop ho
  rw [exec_setContinuousServoSpeed_of_mapped hc (ho.imp_right ordered_iff.2), finish_moveServo_of_allSucceed hs,
    continuousPwm_eq, startCount, midCount, endCount, frequencyOffset_eq, frequencyOffset_eq, frequencyOffset_eq]

/-- Settles O42: on a broken calibration both commands are the move at the drawn count. -/
theorem brokenOrderWritesSomeCount : Obligations.BrokenOrderWritesSomeCount := by
  intro ch x a c s hc hs k sv hbroken
  have ho : ordered sv = false := Bool.eq_false_iff.2 fun ho => hbroken (ordered_iff.1 ho)
  refine ⟨⟨clampCount s.drawCount.toNat, ?_⟩, fun hx => ⟨clampCount s.drawCount.toNat, ?_⟩⟩
  · rw [exec_setStandardServoAngle_of_broken hc ho, finish_moveServo_of_allSucceed hs]
  · rw [exec_setContinuousServoSpeed_of_broken hc ho hx, finish_moveServo_of_allSucceed hs]

/-! ## What a motion command leaves in its slot (spec/43_pulse_math.md R105, R106) -/

/-- Completed or cut short, the move has written the position of one entry. -/
theorem finish_moveServo_slot {a : Byte} (ha : validAddress a = true) (c : ChipConfig) (k : Fin 16) (pos : Position)
    (pwm : Int) (s : State) :
    (moveServo a c k pos pwm s).finish.slot a = some (c.setServo k { c.servo k with position := pos }) := by
  obtain ⟨-, h⟩ | ⟨i, -, -, h⟩ := moveServo_cases a c k pos pwm s <;> rw [h]
  · exact setSlot_slot_same _ ha
  · exact setSlot_slot_same _ ha

/-- At a mapped count or at a drawn one, a motion command is the move. -/
theorem exec_motion_slot {s t : State} {a : Byte} {c : ChipConfig} {ch x : Int} (hc : s.slot a = some c)
    (h : exec (.setStandardServoAngle ch x a) s = .next t ∨ exec (.setContinuousServoSpeed ch x a) s = .next t) :
    ∃ pos, t.slot a = some (c.setServo (channelIndex ch) { c.servo (channelIndex ch) with position := pos }) := by
  have ha := validAddress_of_slot hc
  obtain h | h := h
  all_goals
    rw [exec_of_hit hc, Host.Outcome.next.injEq, bodyOf] at h
    subst h
    split
    · exact ⟨_, finish_moveServo_slot ha ..⟩
    · exact ⟨_, finish_moveServo_slot ha ..⟩

/-- Settles O53: the slot holds its old content with the position of one entry written. -/
theorem motionFrame : Obligations.MotionFrame := by
  intro s t a c ch x hc h
  obtain ⟨pos, ht⟩ := exec_motion_slot hc h
  exact ⟨_, ht, rfl, rfl, fun j hj => setServo_servo_other c _ hj, pos, setServo_servo_same ..⟩

end Sys2Proof.Machine
end

section
/-! The order of sleep and prescaler writes, the prescaler, `init` and `reset`, and the phase after every command: the
statements of spec/44_bringup.md. -/

namespace Sys2Proof.Machine

/-! ## Traces that keep the order of sleep and prescaler writes (spec/44_bringup.md R127) -/

/-- The order concerns neighbours, and a guarded part never begins with a PRESCALE write. -/
theorem PrescaleGuarded.append {sleep : Byte} {first second : List BusEvent} (h : PrescaleGuarded sleep first)
    (h' : PrescaleGuarded sleep second) : PrescaleGuarded sleep (first ++ second) := by
  intro before after a v ans e
  obtain ⟨mid, rfl, e'⟩ | ⟨mid, rfl, e'⟩ := List.append_eq_append_iff.1 e
  · obtain ⟨earlier, rfl⟩ := h' mid after a v ans e'
    exact ⟨first ++ earlier, (List.append_assoc ..).symm⟩
  · cases mid with
    | nil =>
      obtain ⟨earlier, hnil⟩ := h' [] after a v ans e'.symm
      exact absurd hnil.symm (by simp)
    | cons x mid =>
      obtain ⟨rfl, -⟩ := List.cons_eq_cons.1 e'
      exact h before mid a v ans rfl

/-- The operation is no PRESCALE write. -/
def BusOp.OffPrescale : BusOp → Prop
  | .write r _ => r ≠ 0xFE
  | .delay _ => True

/-- Events without a PRESCALE write keep the order. -/
theorem prescaleGuarded_of_offPrescale {sleep a : Byte} {events : List BusEvent}
    (h : ∀ e ∈ events, e.ComesFrom a BusOp.OffPrescale) : PrescaleGuarded sleep events := by
  rintro before after b v ans rfl
  obtain ⟨-, hoff⟩ := h (.write b 0xFE v ans) (by simp)
  exact absurd rfl hoff

/-- The first two events of the sequence, whatever the answer to the second. -/
theorem prescaleGuarded_sleep_prescale (sleep a v : Byte) (ans : BusAnswer) :
    PrescaleGuarded sleep [.write a 0x00 sleep .success, .write a 0xFE v ans] := by
  intro before after b v' ans' h
  match before, h with
  | [], h => simp at h
  | [e], h =>
    simp only [List.singleton_append, List.cons.injEq, BusEvent.write.injEq] at h
    obtain ⟨rfl, ⟨rfl, -⟩, -⟩ := h
    exact ⟨[], rfl⟩
  | _ :: _ :: rest, h => simp at h

/-- After those two the sequence writes no PRESCALE (R122). -/
theorem offPrescale_of_mem_drop_initEvents (p : Params) (a : Byte) (f : Nat) :
    ∀ e ∈ (initEvents p a f).drop 2, e.ComesFrom a BusOp.OffPrescale := by
  simp [initEvents, BusEvent.ComesFrom, BusOp.OffPrescale]

theorem prescaleGuarded_initEvents (p : Params) (a : Byte) (f : Nat) : PrescaleGuarded p.mode1Sleep (initEvents p a f) :=
  (prescaleGuarded_sleep_prescale p.mode1Sleep a (prescaleByte f) .success).append
    (prescaleGuarded_of_offPrescale (offPrescale_of_mem_drop_initEvents p a f))

/-- Cutting an event list short changes an answer and no operation. -/
theorem comesFrom_cutTrace {a : Byte} {P : BusOp → Prop} {events : List BusEvent} (i : Nat)
    (h : ∀ e ∈ events, e.ComesFrom a P) : ∀ e ∈ cutTrace i events, e.ComesFrom a P := by
  induction events generalizing i with
  | nil => exact h
  | cons e rest ih =>
    obtain ⟨he, hrest⟩ := List.forall_mem_cons.1 h
    cases e with
    | delay n => exact List.forall_mem_cons.2 ⟨he, ih i hrest⟩
    | write b r v ans =>
      cases i with
      | zero => exact List.forall_mem_singleton.2 he
      | succ i => exact List.forall_mem_cons.2 ⟨he, ih i hrest⟩

/-- A sequence cut at its sleep write does not reach PRESCALE; cut later, its sleep write was a success (R123). -/
theorem prescaleGuarded_cutTrace_initEvents (p : Params) (a : Byte) (f i : Nat) :
    PrescaleGuarded p.mode1Sleep (cutTrace i (initEvents p a f)) := by
  match i with
  | 0 =>
    have hoff : (BusEvent.write a 0x00 p.mode1Sleep .busError).ComesFrom a BusOp.OffPrescale := ⟨rfl, nofun⟩
    exact prescaleGuarded_of_offPrescale (List.forall_mem_singleton.2 hoff)
  | 1 => exact prescaleGuarded_sleep_prescale p.mode1Sleep a (prescaleByte f) .busError
  | i + 2 =>
    exact (prescaleGuarded_sleep_prescale p.mode1Sleep a (prescaleByte f) .success).append
      (prescaleGuarded_of_offPrescale (comesFrom_cutTrace i (offPrescale_of_mem_drop_initEvents p a f)))

/-! ## Every command keeps the order (spec/44_bringup.md R122, R127) -/

/-- The trace of the state keeps the order for the state's own sleep byte. -/
def State.Guarded (s : State) : Prop := PrescaleGuarded s.params.mode1Sleep s.trace

theorem State.Guarded.append {s t : State} {events : List BusEvent} (h : s.Guarded) (hp : t.params = s.params)
    (ht : t.trace = s.trace ++ events) (he : PrescaleGuarded s.params.mode1Sleep events) : t.Guarded := by
  rw [State.Guarded, hp, ht]
  exact PrescaleGuarded.append h he

/-- Operations other than PRESCALE writes keep the order. -/
theorem State.Guarded.of_performs {a : Byte} {s t : State} (h : s.Guarded) (ht : Performs a BusOp.OffPrescale s t) :
    t.Guarded := by
  obtain ⟨hp, events, htrace, he⟩ := ht
  exact h.append hp htrace (prescaleGuarded_of_offPrescale he)

theorem lookupOrCreate_guarded {s : State} (hs : s.Guarded) (a : Byte) (f : Int) :
    (lookupOrCreate a f s).Ends State.Guarded := by
  obtain ⟨-, h⟩ | ⟨c, -, h⟩ | ⟨-, -, -, h⟩ | ⟨i, -, -, -, -, h⟩ := lookupOrCreate_cases a f s <;> rw [h]
  · exact hs
  · exact hs
  · exact hs.append (by simp [State.created]) rfl (prescaleGuarded_initEvents _ a _)
  · exact hs.append (by simp) rfl (prescaleGuarded_cutTrace_initEvents _ a _ i)

theorem bringUp_guarded {s : State} (hs : s.Guarded) (a : Byte) (c : ChipConfig) :
    (bringUp a c s).Ends State.Guarded := by
  obtain ⟨-, h⟩ | ⟨i, -, -, h⟩ := bringUp_cases a c s <;> rw [h]
  · exact hs.append (by simp) rfl (prescaleGuarded_initEvents _ a _)
  · exact hs.append (by simp) rfl (prescaleGuarded_cutTrace_initEvents _ a _ i)

/-- The encoder writes to channel registers alone (R70). -/
theorem offPrescale_of_mem_channelScript {p on off : Int} {op : BusOp} (h : op ∈ channelScript p on off) :
    op.OffPrescale := by
  obtain ⟨j, v, hj, rfl, -⟩ := exists_place_of_mem_channelScript h
  have hp := clampPin_lt p
  intro hr
  have hreg : (slotBase (clampPin p) + BitVec.ofNat 8 j).toNat = 0xFE := congrArg BitVec.toNat hr
  rw [slotBase_add_toNat hp hj] at hreg
  omega

theorem moveServo_guarded {s : State} (hs : s.Guarded) (a : Byte) (c : ChipConfig) (k : Fin 16) (pos : Position)
    (pwm : Int) : (moveServo a c k pos pwm s).Ends State.Guarded :=
  ends_imp (moveServo_performs fun _ => offPrescale_of_mem_channelScript) fun _ => hs.of_performs

theorem bodyOf_guarded {s : State} (hs : s.Guarded) (i : Instr) (found : Lookup) :
    (bodyOf i found s).Ends State.Guarded := by
  cases i with
  | init a f =>
    simp only [bodyOf]
    split
    · exact hs
    · exact bringUp_guarded hs ..
  | reset a =>
    simp only [bodyOf]
    split
    · exact hs
    · exact bringUp_guarded hs ..
  | setPinPulseRange pin on off a =>
    exact ends_andThen (ends_imp (writeChannel_performs fun _ => offPrescale_of_mem_channelScript) fun _ => hs.of_performs)
      fun _ _ h => h
  | setStandardServoAngle ch x a =>
    simp only [bodyOf]
    split
    · exact moveServo_guarded hs ..
    · exact moveServo_guarded (s := s.dropDraw) hs ..
  | setContinuousServoSpeed ch x a =>
    simp only [bodyOf]
    split
    · exact moveServo_guarded hs ..
    · exact moveServo_guarded (s := s.dropDraw) hs ..
  | setServoLimits ch mn mx md a => exact hs.of_performs (a := a) (.of_eq (by simp) (by simp))
  | getChipConfig a => exact hs

theorem exec_guarded {i : Instr} {s t : State} (hs : s.Guarded) (h : exec i s = .next t) : t.Guarded := by
  rw [exec_eq, Host.Outcome.next.injEq] at h
  subst h
  exact finish_of_ends (ends_andThen (lookupOrCreate_guarded hs ..) fun found _ hu => bodyOf_guarded hu i found)
    (fun _ _ hu => hu) (fun _ _ hu => hu)

/-- Settles O17: a step runs a command, whose only PRESCALE writes are those of a sequence, or causes no event. -/
theorem prescaleIsWrittenOnlyAfterSleep : Obligations.PrescaleIsWrittenOnlyAfterSleep := by
  intro s t hs h
  obtain rfl | ⟨w, rest, -, ⟨i, -, hexec⟩ | ⟨-, rfl⟩⟩ := step_cases h
  · exact hs
  · exact exec_guarded (s := { s with commands := rest }) hs hexec
  · exact hs

/-! ## The prescaler (spec/44_bringup.md R120) -/

/-- The prescaler is the greatest `x` with `(4096 x + 2048) f ≤ 25000000`. -/
theorem le_prescale_iff {f : Nat} (hf : 0 < f) (x : Int) : x ≤ prescale f ↔ (4096 * x + 2048) * f ≤ 25000000 := by
  have hd : (0 : Int) < 4096 * f := by omega
  have hsum : (x + 1) * (4096 * f) = (4096 * x + 2048) * f + 2048 * f := by ring
  rw [prescale, fdiv_eq_ediv _ hd.le, le_sub_iff_add_le, Int.le_ediv_iff_mul_le hd, hsum]
  omega

theorem prescale_bounds {f : Nat} (hlo : 40 ≤ f) (hhi : f ≤ 1000) : 5 ≤ prescale f ∧ prescale f ≤ 152 := by
  have h5 := le_prescale_iff (show 0 < f by omega) 5
  have h153 := le_prescale_iff (show 0 < f by omega) 153
  omega

/-- What the ideal quotient `25000000 / (4096 f)` differs from the prescaler plus 1 by is below one half; it is not one
half itself, because 2048 does not divide 25000000. -/
theorem prescale_nearest {f : Nat} (hf : 0 < f) :
    2 * (25000000 - (prescale f + 1) * (4096 * f)) < 4096 * f ∧
      -(4096 * f) < 2 * (25000000 - (prescale f + 1) * (4096 * f)) := by
  have hle := (le_prescale_iff hf (prescale f)).1 le_rfl
  have hlt := mt (le_prescale_iff hf (prescale f + 1)).2 (by omega)
  have hnear : (prescale f + 1) * (4096 * f) = 4096 * (prescale f * f) + 4096 * f := by ring
  have hlow : (4096 * prescale f + 2048) * f = 4096 * (prescale f * f) + 2048 * f := by ring
  have hhigh : (4096 * (prescale f + 1) + 2048) * f = 4096 * (prescale f * f) + 6144 * f := by ring
  omega

theorem prescale_antitone {f g : Nat} (hlo : 40 ≤ f) (hfg : f ≤ g) (hhi : g ≤ 1000) : prescale g ≤ prescale f := by
  obtain ⟨h5, -⟩ := prescale_bounds (hlo.trans hfg) hhi
  refine (le_prescale_iff (by omega) _).2 ?_
  calc (4096 * prescale g + 2048) * f
      ≤ (4096 * prescale g + 2048) * g := mul_le_mul_of_nonneg_left (by exact_mod_cast hfg) (by omega)
    _ ≤ 25000000 := (le_prescale_iff (by omega) _).1 le_rfl

/-- Settles O24: nearness, bounds and order follow from the prescaler being a greatest solution; the listed values are computed. -/
theorem prescalerIsTheNearestInteger : Obligations.PrescalerIsTheNearestInteger := by
  refine ⟨fun f hlo hhi => ?_, fun f g => prescale_antitone, by decide⟩
  obtain ⟨h5, h152⟩ := prescale_bounds hlo hhi
  refine ⟨prescale_nearest (by omega), h5, h152, ?_⟩
  rw [prescaleByte, BitVec.toNat_ofInt]
  omega

/-! ## `init` and `reset` on an unregistered address (spec/44_bringup.md R124, R125) -/

/-- Settles O25: the creating sequence is the init, so the body is the answer alone. -/
theorem initCreatesAtItsFrequency : Obligations.InitCreatesAtItsFrequency :=
  fun _ _ _ hv hc hs => exec_of_miss hv hc hs

/-- Settles O26: the creating sequence is the reset, so the body is the answer alone. -/
theorem resetCreatesAtFiftyHertz : Obligations.ResetCreatesAtFiftyHertz :=
  fun _ _ hv hc hs => exec_of_miss hv hc hs

/-! ## `init` and `reset` on a registered slot (spec/44_bringup.md R123 to R126) -/

section
variable {s : State} {a : Byte} {c : ChipConfig}

theorem exec_init_of_hit (hc : s.slot a = some c) (f : Int) :
    exec (.init a f) s = .next (bringUp a { c with frequency := clampFrequency f } s).finish :=
  exec_of_hit hc

theorem exec_reset_of_hit (hc : s.slot a = some c) : exec (.reset a) s = .next (bringUp a c s).finish :=
  exec_of_hit hc

theorem finish_bringUp_of_allSucceed (hs : s.allSucceed 8) :
    (bringUp a c s).finish = { (s.useAnswers 8).setSlot a { c with phase := .running } with
      seq := 0, trace := s.trace ++ initEvents s.params a c.frequency }.respond .ok := by
  rw [bringUp_of_allSucceed a c s hs, finish_done]

/-- The phase is written before the first write and stays when one fails (R123, R126, R146). -/
theorem finish_bringUp_of_failsAt {k : Nat} (hk : k < 8) (hs : s.failsAt k) :
    (bringUp a c s).finish = (s.setSlot a { c with phase := .initializing }).failed (k + 1)
      (cutTrace k (initEvents s.params a c.frequency)) .busError := by
  rw [bringUp_of_failsAt a c k s hk hs, finish_raised, ← takeError_useAnswers, useAnswers_setSlot, setSlot_trace]
  -- Taking the error resets `seq`, which the aborted sequence has reset already (R123, R146).
  rfl

/-- Completed or aborted, the sequence has written the phase alone (R126). -/
theorem finish_bringUp_slot (ha : validAddress a = true) (c : ChipConfig) : (bringUp a c s).finish.slot a =
    some { c with phase := if s.allSucceed 8 then .running else .initializing } := by
  obtain ⟨hs, h⟩ | ⟨i, hi, hs, h⟩ := bringUp_cases a c s <;> rw [h]
  · rw [if_pos hs]
    exact setSlot_slot_same _ ha
  · rw [if_neg (not_allSucceed_of_failsAt hi hs)]
    exact setSlot_slot_same _ ha

end

/-- Settles O27: the sequence on the slot's content with the new frequency, completed. -/
theorem initRunsTheSequenceAndStoresTheFrequency : Obligations.InitRunsTheSequenceAndStoresTheFrequency := by
  intro a f c s hc hs
  rw [exec_init_of_hit hc, finish_bringUp_of_allSucceed hs]

/-- Settles O28: the sequence on the slot's content with the new frequency, aborted. -/
theorem abortedInitKeepsTheNewFrequency : Obligations.AbortedInitKeepsTheNewFrequency := by
  intro a f c s k hc hk hs
  rw [exec_init_of_hit hc, finish_bringUp_of_failsAt hk hs]

/-- Settles O29: the sequence on the slot's content as it is, completed. -/
theorem resetRunsTheSequenceAtTheStoredFrequency : Obligations.ResetRunsTheSequenceAtTheStoredFrequency := by
  intro a c s hc hs
  rw [exec_reset_of_hit hc, finish_bringUp_of_allSucceed hs]

/-- Settles O30: the sequence on the slot's content as it is, aborted. -/
theorem abortedResetLeavesInitializing : Obligations.AbortedResetLeavesInitializing := by
  intro a c s k hc hk hs
  rw [exec_reset_of_hit hc, finish_bringUp_of_failsAt hk hs]

/-- Settles O51: the slot holds its old content with the phase written, and for `init` the frequency. -/
theorem bringUpKeepsTheServoEntries : Obligations.BringUpKeepsTheServoEntries := by
  intro s t a c f hc
  have ha := validAddress_of_slot hc
  refine ⟨fun h => ?_, fun h => ?_⟩
  · rw [exec_init_of_hit hc, Host.Outcome.next.injEq] at h
    subst h
    exact ⟨_, finish_bringUp_slot ha _, rfl, rfl⟩
  · rw [exec_reset_of_hit hc, Host.Outcome.next.injEq] at h
    subst h
    exact ⟨_, finish_bringUp_slot ha c, rfl, rfl⟩

/-! ## The phase after a command (spec/10_state.md R19, spec/44_bringup.md R126) -/

/-- A phase is read from its slot alone. -/
theorem phase_congr {s t : State} {a : Byte} (h : t.slot a = s.slot a) : t.phase a = s.phase a := by
  rw [State.phase, State.phase, h]

theorem phase_of_running {s : State} {a : Byte} {c : ChipConfig} (hc : s.slot a = some c) (hp : c.phase = .running) :
    s.phase a = .running := by
  simp only [State.phase, hc, hp]

theorem phase_of_initializing {s : State} {a : Byte} {c : ChipConfig} (hc : s.slot a = some c)
    (hp : c.phase = .initializing) : s.phase a = .initializing := by
  simp only [State.phase, hc, hp]

theorem phase_eq_unregistered_iff {s : State} {a : Byte} : s.phase a = .unregistered ↔ s.slot a = none := by
  cases hc : s.slot a with
  | none => simp only [State.phase, hc]
  | some c => cases hp : c.phase <;> simp [State.phase, hc, hp]

theorem finish_bringUp_phase {a : Byte} (ha : validAddress a = true) (c : ChipConfig) (s : State) :
    (bringUp a c s).finish.phase a = if s.allSucceed 8 then .running else .initializing := by
  have hslot := finish_bringUp_slot (s := s) ha c
  by_cases hs : s.allSucceed 8
  · rw [if_pos hs]
    exact phase_of_running hslot (if_pos hs)
  · rw [if_neg hs]
    exact phase_of_initializing hslot (if_neg hs)

/-- Only `init` and `reset` store a phase. -/
theorem StoredBy.phase_eq {i : Instr} {c c' : ChipConfig} (hinit : ∀ a f, i ≠ .init a f) (hreset : ∀ a, i ≠ .reset a)
    (h : StoredBy i c c') : c'.phase = c.phase := by
  cases i with
  | init a f => exact absurd rfl (hinit a f)
  | reset a => exact absurd rfl (hreset a)
  | _ => cases h; rfl

/-- On a registered slot every other command keeps the phase, completed or failed. -/
theorem exec_keeps_phase {i : Instr} {s t : State} {c : ChipConfig} (hc : s.slot i.address = some c)
    (hinit : ∀ a f, i ≠ .init a f) (hreset : ∀ a, i ≠ .reset a) (h : exec i s = .next t) :
    t.phase i.address = s.phase i.address := by
  have hfound : s.contentFor i = c := by simp [State.contentFor, hc]
  obtain hcfg | ⟨c', hleft, hcfg⟩ := (exec_storesAt h).cfg
  · exact phase_congr (slot_congr hcfg _)
  · have ht : t.slot i.address = some c' :=
      (slot_congr hcfg _).trans (setSlot_slot_same c' (validAddress_of_slot hc))
    have hp : c'.phase = c.phase := by
      obtain rfl | hstored := hleft
      · rw [hfound]
      · exact (hstored.phase_eq hinit hreset).trans (congrArg ChipConfig.phase hfound)
    simp only [State.phase, ht, hc, hp]

theorem init_or_reset_or_other (i : Instr) :
    (∃ a f, i = .init a f) ∨ (∃ a, i = .reset a) ∨ ((∀ a f, i ≠ .init a f) ∧ ∀ a, i ≠ .reset a) := by
  cases i <;> simp

/-- On an unregistered slot a command whose creation succeeds ends with the phase the creation leaves. -/
theorem exec_phase_of_created {i : Instr} {s t : State} (hv : validAddress i.address = true)
    (hc : s.slot i.address = none) (hs : s.allSucceed 8) (h : exec i s = .next t) : t.phase i.address = .running := by
  obtain ⟨a, f, rfl⟩ | ⟨a, rfl⟩ | ⟨hinit, hreset⟩ := init_or_reset_or_other i
  · rw [initCreatesAtItsFrequency a f s hv hc hs] at h
    cases h
    exact phase_of_running (setSlot_slot_same _ hv) rfl
  · rw [resetCreatesAtFiftyHertz a s hv hc hs] at h
    cases h
    exact phase_of_running (setSlot_slot_same _ hv) rfl
  · have hslot := created_slot s 50 hv
    rw [missCreatesTheSlotThenRunsTheCommand i s hinit hreset hv hc hs] at h
    exact (exec_keeps_phase hslot hinit hreset h).trans (phase_of_running hslot rfl)

/-- Settles O31: the rows are creation, the sequence on a registered slot, and the commands that store no phase. -/
theorem phaseFollowsTheBringUpTable : Obligations.PhaseFollowsTheBringUpTable := by
  intro i s t h hv
  have hregistered (hp : s.phase i.address ≠ .unregistered) : ∃ c, s.slot i.address = some c :=
    Option.ne_none_iff_exists'.1 (mt phase_eq_unregistered_iff.2 hp)
  refine ⟨fun hp => ?_, fun hp hi => ?_, fun hp hinit hreset => ?_⟩
  · have hc := phase_eq_unregistered_iff.1 hp
    obtain hs | ⟨k, hk, hs⟩ := allSucceed_or_failsAt 8 s
    · rw [if_pos hs]
      exact exec_phase_of_created hv hc hs h
    · obtain ⟨hfailed, hcfg⟩ := failedCreationStoresNothing i s k hv hc hk hs
      rw [if_neg (not_allSucceed_of_failsAt hk hs)]
      rw [hfailed] at h
      cases h
      exact (phase_congr (slot_congr hcfg _)).trans hp
  · obtain ⟨c, hc⟩ := hregistered hp
    obtain ⟨a, f, rfl⟩ | ⟨a, rfl⟩ := hi
    · rw [exec_init_of_hit (a := a) hc] at h
      cases h
      exact finish_bringUp_phase hv ..
    · rw [exec_reset_of_hit (a := a) hc] at h
      cases h
      exact finish_bringUp_phase hv ..
  · obtain ⟨c, hc⟩ := hregistered hp
    exact exec_keeps_phase hc hinit hreset h

end Sys2Proof.Machine
end

section
/-! The errors of the block: the word that decodes to no command, and which errors a step can answer
(spec/60_exceptions.md R140 to R145). -/

namespace Sys2Proof.Machine

/-! ## The word that decodes to no command (spec/60_exceptions.md R145) -/

/-- A step takes `IllegalCommand` on a word that decodes to no command (R54, R145). -/
theorem step_of_decode_error {s : State} {w : Nat} {rest : List Nat} {e : DecodeError} (hc : s.commands = w :: rest)
    (hd : decode s.params.operandW (portWord s.params w) = .error e) :
    step s = .next (({ s with commands := rest } : State).takeError .illegalCommand) := by
  simp only [step, fetch, hc, hd]

/-- Settles O8: such a word is refused by its `op`, and taking the error resets `seq` and answers, nothing more. -/
theorem illegalWordAnswersIllegalCommand : Obligations.IllegalWordAnswersIllegalCommand := by
  intro s w rest hc hop
  exact step_of_decode_error hc (decode_of_illegal hop)

/-! ## The errors a step answers (spec/60_exceptions.md R141 to R145) -/

/-- A command's error is `InvalidAddress`, from the address check, or `BusError`, from a write (R141, R143). -/
theorem error_of_exec {i : Instr} {s t : State} {kind : ErrorKind} (h : exec i s = .next t)
    (hr : t.responses = s.responses ++ [.err kind]) : kind = .invalidAddress ∨ kind = .busError := by
  cases hv : validAddress i.address with
  | false =>
    rw [exec_of_invalid s hv] at h
    cases h
    obtain ⟨-, hlast⟩ := List.append_inj' hr rfl
    cases hlast
    exact .inl rfl
  | true =>
    rw [exec_eq, Host.Outcome.next.injEq] at h
    subst h
    exact .inr ((lookupOrCreate_andThen_bodyOf_onlyBusError s hv).eq_busError hr)

/-- A step that waits answers nothing; any other appends one response, and if that is an error, its kind is one of the
three that are raised (R58, R141, R143, R145). -/
theorem step_responses {s t : State} (h : step s = .next t) :
    t.responses = s.responses ∨ ∃ r, t.responses = s.responses ++ [r] ∧
      ∀ kind, r = .err kind → kind = .invalidAddress ∨ kind = .busError ∨ kind = .illegalCommand := by
  obtain rfl | ⟨w, rest, -, ⟨i, -, hexec⟩ | ⟨-, rfl⟩⟩ := step_cases h
  · exact .inl rfl
  · obtain ⟨r, hr⟩ := everyCommandAnswersExactlyOnce i _ t hexec
    refine .inr ⟨r, hr, ?_⟩
    rintro kind rfl
    exact (error_of_exec hexec hr).imp_right .inl
  · refine .inr ⟨.err .illegalCommand, rfl, ?_⟩
    rintro kind ⟨⟩
    exact .inr (.inr rfl)

/-- Settles O11: a response is an earlier one or the one the step appends, whose error is of the three raised kinds. -/
theorem reservedErrorsAreNeverAnswered : Obligations.ReservedErrorsAreNeverAnswered := by
  intro s t h hs r hmem
  obtain hkept | ⟨last, happended, hkind⟩ := step_responses h
  · exact hs r (hkept ▸ hmem)
  · rw [happended, List.mem_append, List.mem_singleton] at hmem
    obtain hold | rfl := hmem
    · exact hs r hold
    · exact ⟨fun hr => absurd (hkind _ hr) (by decide), fun hr => absurd (hkind _ hr) (by decide)⟩

end Sys2Proof.Machine
end

section
/-! The zeroed channels after a bring-up and the saturation of the default calibration: the statements of
spec/70_reset_and_hazards.md. -/

namespace Sys2Proof.Machine

/-! ## The broadcast zeroing of the init sequence (spec/70_reset_and_hazards.md R171) -/

/-- Of the registers outside the channel slots only the broadcast register of the same place reaches a channel register
(R32, R33). -/
theorem reaches_channel_iff {r : Byte} {p j : Nat} (hp : p < 16) (hj : j < 4) (hr : r.toNat < 0x06 ∨ 0x45 < r.toNat) :
    Reaches r (slotBase p + BitVec.ofNat 8 j) ↔ r.toNat = 0xFA + j := by
  have hplace := slotBase_add_toNat hp hj
  constructor
  · rintro (h | ⟨hb, n, hn, h⟩)
    · rw [h] at hplace
      omega
    · rw [h, broadcastTarget_toNat hb hn] at hplace
      obtain ⟨hlo, hhi⟩ := (isBroadcast_iff r).1 hb
      omega
  · intro h
    have hb : isBroadcast r = true := (isBroadcast_iff r).2 (by omega)
    refine .inr ⟨hb, p, hp, BitVec.eq_of_toNat_eq ?_⟩
    rw [hplace, broadcastTarget_toNat hb hp]
    omega

/-- A successful write outside the channel slots, on a channel register of the same chip. -/
theorem read_apply_success_channel (m : Memory) (a v : Byte) {r : Byte} {p j : Nat} (hp : p < 16) (hj : j < 4)
    (hr : r.toNat < 0x06 ∨ 0x45 < r.toNat) :
    (m.apply (.write a r v .success)).read (location a (slotBase p + BitVec.ofNat 8 j)) =
      if r.toNat = 0xFA + j then some v else m.read (location a (slotBase p + BitVec.ofNat 8 j)) := by
  simp only [read_apply_success, true_and, reaches_channel_iff hp hj hr]

/-- The four broadcast writes of a completed init sequence zero every channel register, and no other write of it reaches
one (R122, R171). -/
theorem read_imageOf_append_initEvents (trace : List BusEvent) (params : Params) (a : Byte) (f : Nat) {p j : Nat}
    (hp : p < 16) (hj : j < 4) :
    (imageOf (trace ++ initEvents params a f)).read (location a (slotBase p + BitVec.ofNat 8 j)) = some 0 := by
  have hdelay (m : Memory) (n : Nat) : m.apply (.delay n) = m := rfl
  rw [imageOf_append]
  simp only [initEvents, List.foldl_cons, List.foldl_nil, hdelay]
  simp (disch := decide) only [read_apply_success_channel _ a _ hp hj]
  match j, hj with
  | 0, _ | 1, _ | 2, _ | 3, _ => simp

section
variable {s t : State} {a : Byte} {f : Int}

/-- On a hit or on a miss, an `init` or a `reset` whose writes succeed causes the events of one init sequence (R124,
R125). -/
theorem exec_init_or_reset_trace (hv : validAddress a = true) (hs : s.allSucceed 8)
    (h : exec (.init a f) s = .next t ∨ exec (.reset a) s = .next t) :
    ∃ f', t.trace = s.trace ++ initEvents s.params a f' := by
  cases hc : s.slot a with
  | none =>
    rw [initCreatesAtItsFrequency a f s hv hc hs, resetCreatesAtFiftyHertz a s hv hc hs] at h
    obtain ⟨⟨⟩⟩ | ⟨⟨⟩⟩ := h
    · exact ⟨_, rfl⟩
    · exact ⟨_, rfl⟩
  | some c =>
    rw [initRunsTheSequenceAndStoresTheFrequency a f c s hc hs,
      resetRunsTheSequenceAtTheStoredFrequency a c s hc hs] at h
    obtain ⟨⟨⟩⟩ | ⟨⟨⟩⟩ := h
    · exact ⟨_, rfl⟩
    · exact ⟨_, rfl⟩

/-- On a registered slot `init` and `reset` leave the servo entries (R124, R125). -/
theorem exec_init_or_reset_servos {c : ChipConfig} (hc : s.slot a = some c)
    (h : exec (.init a f) s = .next t ∨ exec (.reset a) s = .next t) :
    ∃ c', t.slot a = some c' ∧ c'.servos = c.servos := by
  obtain ⟨hinit, hreset⟩ := bringUpKeepsTheServoEntries s t a c f hc
  obtain ⟨c', ht, hservos, -⟩ | ⟨c', ht, hservos, -⟩ := h.imp hinit hreset
  · exact ⟨c', ht, hservos⟩
  · exact ⟨c', ht, hservos⟩

end

/-- Settles O58: the command's events are those of one init sequence, which zeroes the channel registers, and the servo
entries of a registered slot stay. -/
theorem bringUpZeroesEveryChannel : Obligations.BringUpZeroesEveryChannel := by
  intro s t a f hv hs h
  refine ⟨fun p j hp hj => ?_, fun c k hc => ?_⟩
  · obtain ⟨f', ht⟩ := exec_init_or_reset_trace hv hs h
    rw [State.image, ht]
    exact read_imageOf_append_initEvents s.trace s.params a f' hp hj
  · obtain ⟨c', ht, hservos⟩ := exec_init_or_reset_servos hc h
    exact ⟨c', ht, by rw [ChipConfig.servo, hservos, ChipConfig.servo]⟩

/-! ## The default calibration at the end of the counter (spec/70_reset_and_hazards.md R177) -/

/-- A count beyond the 12-bit counter is written as its last value (R72). -/
theorem clampCount_of_4096_le {n : Int} (h : 4096 ≤ n) : clampCount n = 4095 := by
  have hn := clampCount_toNat_eq n
  apply BitVec.eq_of_toNat_eq
  rw [show (4095 : Count).toNat = 4095 from rfl]
  omega

section
variable {p : Params} {f : Nat} {sv : ServoConfig}

/-- From 40 Hz on the default end offset 25 gives a count beyond the counter (R100). -/
theorem le_endCount_of_default (hp : p.foDiv = 1000) (hf : 40 ≤ f) (hmax : sv.maxOffset = 25) :
    4096 ≤ endCount p f sv := by
  rw [endCount, frequencyOffset_eq, hp, hmax]
  omega

/-- At 50 Hz the default calibration spans the counts 1024 to 5120, and three quarters of the way is 4096 (R102). -/
theorem standardPwm_135_of_default (hp : p.foDiv = 1000) (hmin : sv.minOffset = 5) (hmax : sv.maxOffset = 25)
    (ho : ordered sv = true) : standardPwm p 50 sv 135 = 4096 := by
  rw [standardPwm_eq p 50 ho (by decide) (by decide), startCount, endCount, hp, hmin, hmax]
  decide

/-- With the default calibration the angles R177 names have a count beyond the counter. -/
theorem le_standardPwm_of_default {x : Int} (hp : p.foDiv = 1000) (hf : 40 ≤ f) (hmin : sv.minOffset = 5)
    (hmax : sv.maxOffset = 25) (ho : ordered sv = true) (hx : 180 ≤ x ∨ (f = 50 ∧ 135 ≤ x)) :
    4096 ≤ standardPwm p f sv (clampAngle x) := by
  obtain hx | ⟨rfl, hx⟩ := hx
  · rw [show clampAngle x = 180 by rw [clampAngle_eq]; omega, standardPwm_180 p f ho]
    exact le_endCount_of_default hp hf hmax
  · rw [← standardPwm_135_of_default hp hmin hmax ho]
    exact standardPwm_mono p 50 ho (by decide) (clampAngle_mono hx) (clampAngle_mem x).2

end

/-- Settles O47: each motion command is the move at a count beyond the counter, which the encoder writes as 4095. -/
theorem defaultCalibrationSaturates : Obligations.DefaultCalibrationSaturates := by
  intro ch x a c s hc hs k sv written hp hf _ hmin hmid hmax
  have ho : ordered sv = true := ordered_iff.2 (by omega)
  have hend := le_endCount_of_default hp hf hmax
  refine ⟨hend, fun hx => ?_, fun hx => ?_⟩
  · rw [exec_setStandardServoAngle_of_ordered hc ho, finish_moveServo_of_allSucceed hs,
      clampCount_of_4096_le (le_standardPwm_of_default hp hf hmin hmax ho hx)]
  · have hspeed : clampSpeed x = 100 := by
      rw [clampSpeed, clamp_eq_max_min x (by decide)]
      omega
    rw [exec_setContinuousServoSpeed_of_mapped hc (.inr ho), finish_moveServo_of_allSucceed hs, hspeed,
      continuousPwm_100, clampCount_of_4096_le hend]

end Sys2Proof.Machine
end
